-- ==== Sys2Proof/Word.lean ====
section
/-! DEFINITION. Word.lean: the two widths of the machine (00_scope.md R7, R10): the byte of a ROM image
and the 4-bit opcode. -/

namespace Sys2Proof

/-- One byte of a ROM image: bit 0 is the least significant (00_scope.md R10). -/
abbrev Byte := BitVec 8

/-- One opcode: 4 bits (00_scope.md R7). -/
abbrev Nibble := BitVec 4

end Sys2Proof
end

