-- ==== Sys2Proof/Syntax.lean ====
section
/-! DEFINITION. Syntax.lean: the commands, the 16 instructions (one constructor for each row of
spec/opcode_table.json), rules, and the frames of a ROM image. -/

namespace Sys2Proof

/-- One component of a Move's payload, in `-1, 0, +1` (30_encoding.md R54). -/
inductive Delta where
  | minus
  | zero
  | plus
deriving DecidableEq, Repr

/-- A value in `+1, -1`: a flip flag (10_state.md R19) or the payload of Scale (30_encoding.md R54). -/
inductive Sign where
  | plus
  | minus
deriving DecidableEq, Repr

/-- The seven kinds of command with their payload domains (30_encoding.md R54). The type admits the
four payloads that have no opcode (R57): Move(0,0), Flip(0,0) and Flip(1,1) are given the meaning of
their kind (42_toggles.md R94), and `Command.wellFormed` refuses them as encodable commands. -/
inductive Command where
  | pushPop
  | move (dx dy : Delta)
  | flip (fx fy : Bool)
  | mirror
  | color
  | draw
  | scale (direction : Sign)
deriving DecidableEq, Repr

/-- The instructions: one for each 4-bit opcode (30_encoding.md R54). In the names of the Moves the
letters give `dx` and then `dy`: `P` is +1, `N` is -1, `0` is 0. -/
inductive Instr where
  | pushPop
  | moveP0
  | moveN0
  | flipX
  | move0N
  | movePN
  | moveNN
  | mirror
  | move0P
  | movePP
  | moveNP
  | flipY
  | color
  | draw
  | scaleP
  | scaleN
deriving DecidableEq, Repr

/-- The name the spec writes an instruction by (30_encoding.md R59): the row's mnemonic in
spec/opcode_table.json. -/
def Instr.mnemonic : Instr → String
  | .pushPop => "PushPop"
  | .moveP0 => "Move(1,0)"
  | .moveN0 => "Move(-1,0)"
  | .flipX => "Flip(1,0)"
  | .move0N => "Move(0,-1)"
  | .movePN => "Move(1,-1)"
  | .moveNN => "Move(-1,-1)"
  | .mirror => "Mirror"
  | .move0P => "Move(0,1)"
  | .movePP => "Move(1,1)"
  | .moveNP => "Move(-1,1)"
  | .flipY => "Flip(0,1)"
  | .color => "Color"
  | .draw => "Draw"
  | .scaleP => "Scale(1)"
  | .scaleN => "Scale(-1)"

/-- A decoded rule: its repeat count and its body, in decode order (30_encoding.md R52, R54). The
assembler takes the same type (R60). -/
structure Rule where
  cycles : Nat
  body : List Instr
deriving DecidableEq, Repr

/-- One entry `(base, n, cycles)` of the framing of an image (30_encoding.md R51): the frame's first
byte address, its command count and its repeat count. -/
structure RuleFrame where
  base : Nat
  n : Nat
  cycles : Nat
deriving DecidableEq, Repr

/-- What framing an image gives (30_encoding.md R51): its frames, or, for an image that ends inside a
frame, the length `L` that `InvalidAddress(L)` names (R50 case 4). -/
inductive Framing where
  | frames (fs : List RuleFrame)
  | truncated (len : Nat)
deriving DecidableEq, Repr

/-- What decoding an image gives: the program, or the rejection of `Framing.truncated` by name. -/
inductive Decoding where
  | program (rules : List Rule)
  | truncated (len : Nat)
deriving DecidableEq, Repr

end Sys2Proof
end

