-- ==== Sys2Proof/WellFormed.lean ====
section
/-! DEFINITION. WellFormed.lean: which terms of the syntax have an encoding. -/

namespace Sys2Proof

/-- A command has an opcode unless it is Move(0,0), Flip(0,0) or Flip(1,1) (30_encoding.md R57). -/
def Command.wellFormed : Command → Bool
  | .pushPop => true
  | .move .zero .zero => false
  | .move _ _ => true
  | .flip fx fy => fx != fy
  | .mirror => true
  | .color => true
  | .draw => true
  | .scale _ => true

/-- Every instruction is well formed: all 16 opcodes are defined and none has an operand field to
check (30_encoding.md R56, R57). -/
def Instr.wellFormed : Instr → Bool
  | .pushPop => true
  | .moveP0 => true
  | .moveN0 => true
  | .flipX => true
  | .move0N => true
  | .movePN => true
  | .moveNN => true
  | .mirror => true
  | .move0P => true
  | .movePP => true
  | .moveNP => true
  | .flipY => true
  | .color => true
  | .draw => true
  | .scaleP => true
  | .scaleN => true

/-- A rule has a frame when its body holds 1 to 255 commands and its repeat count is a byte
(30_encoding.md R48, R60; a count of 0 is the terminator, R57). -/
def Rule.wellFormed (r : Rule) : Bool :=
  decide (1 ≤ r.body.length) && decide (r.body.length ≤ 255) && decide (r.cycles ≤ 255) &&
    r.body.all Instr.wellFormed

/-- A program assembles when each of its rules does (30_encoding.md R60). -/
def programWellFormed (rules : List Rule) : Bool :=
  rules.all Rule.wellFormed

end Sys2Proof
end

