-- ==== Sys2Proof/Decode.lean ====
section
/-! DEFINITION. Decode.lean: from bytes to commands (30_encoding.md R47 to R56) and back (R60). An image
is read through a reader, the partial function that gives the byte at an address, so that the same
framing serves a byte list that `load_rom` is given and the ROM that the state holds. -/

namespace Sys2Proof

/-! ### Bits of a byte -/

/-- `b[7:4]` (00_scope.md R10). -/
def highNibble (b : Byte) : Nibble := b.extractLsb' 4 4

/-- `b[3:0]` (00_scope.md R10). -/
def lowNibble (b : Byte) : Nibble := b.extractLsb' 0 4

/-- The byte whose high nibble is `hi` and whose low nibble is `lo` (30_encoding.md R60). -/
def joinNibbles (hi lo : Nibble) : Byte := hi ++ lo

/-- `ceil2(n)`, the number of bytes that hold `n` nibbles (00_scope.md R10, 40_sequencer.md R83). -/
def ceil2 (n : Nat) : Nat := (n + 1) / 2

/-! ### The opcode map -/

/-- The opcode table, row `k` for the opcode of value `k` (30_encoding.md R54). -/
def opcodeTable : Vector Instr 16 :=
  #v[.pushPop, .moveP0, .moveN0, .flipX, .move0N, .movePN, .moveNN, .mirror,
     .move0P, .movePP, .moveNP, .flipY, .color, .draw, .scaleP, .scaleN]

/-- `Cmd(op)`: total over the 4-bit domain, no opcode rejected (30_encoding.md R54, R57). -/
def cmd (op : Nibble) : Instr := opcodeTable.get op.toFin

/-- `Cmd(v)` of any natural number: only its low 4 bits are used (30_encoding.md R55). -/
def cmdOfNat (v : Nat) : Instr := cmd (BitVec.ofNat 4 v)

/-- The kind and payload of each instruction (30_encoding.md R54). -/
def Instr.command : Instr → Command
  | .pushPop => .pushPop
  | .moveP0 => .move .plus .zero
  | .moveN0 => .move .minus .zero
  | .flipX => .flip true false
  | .move0N => .move .zero .minus
  | .movePN => .move .plus .minus
  | .moveNN => .move .minus .minus
  | .mirror => .mirror
  | .move0P => .move .zero .plus
  | .movePP => .move .plus .plus
  | .moveNP => .move .minus .plus
  | .flipY => .flip false true
  | .color => .color
  | .draw => .draw
  | .scaleP => .scale .plus
  | .scaleN => .scale .minus

/-! ### Nibbles and frames of an image -/

/-- `Nib(a, k)`: nibble `k` of the stream that starts at byte address `a`, the high nibble of a byte
first (00_scope.md R10; 30_encoding.md R49); `none` where the image holds no such byte. -/
def nib (read : Nat → Option Byte) (a k : Nat) : Option Nibble :=
  match read (a + k / 2) with
  | none => none
  | some b => some (if k % 2 = 0 then highNibble b else lowNibble b)

/-- The loop of `Frame(bytes, L)` from the frame start `off` (30_encoding.md R50, R51), bounded by
`fuel` passes: each pass grows `off` by at least 3, so `L + 1` passes are never used up
(`frameFrom_eq` in Laws/Framing.lean is the loop without the bound). -/
def frameLoop (read : Nat → Option Byte) (len : Nat) : Nat → Nat → Framing
  | 0, _ => .truncated len
  | fuel + 1, off =>
    if off < len then
      match read off with
      | none => .truncated len
      | some count =>
        if count.toNat = 0 then .frames []
        else if off + 2 + ceil2 count.toNat ≤ len then
          match read (off + 1) with
          | none => .truncated len
          | some cycles =>
            match frameLoop read len fuel (off + 2 + ceil2 count.toNat) with
            | .truncated l => .truncated l
            | .frames fs => .frames (⟨off, count.toNat, cycles.toNat⟩ :: fs)
        else .truncated len
    else .frames []

/-- `Frame` from the frame start `off` on. -/
def frameFrom (read : Nat → Option Byte) (len off : Nat) : Framing :=
  frameLoop read len (len - off + 1) off

/-- `Frame(bytes, L)`: the frames of an image, from address 0 (30_encoding.md R50, R51). -/
def frameImage (read : Nat → Option Byte) (len : Nat) : Framing :=
  frameFrom read len 0

/-- `Body(r)`: the commands of a frame, nibbles `0 .. n-1` and no further (30_encoding.md R49, R52). -/
def frameBody (read : Nat → Option Byte) (f : RuleFrame) : Option (List Instr) :=
  (List.range f.n).mapM fun k => (nib read (f.base + 2) k).map cmd

/-- A frame as the source's decoded Rule (30_encoding.md R52). -/
def frameRule (read : Nat → Option Byte) (f : RuleFrame) : Option Rule :=
  (frameBody read f).map fun body => ⟨f.cycles, body⟩

/-- The decoded program of an image: total on any bytes, and the one rejection is the truncated
image's, by name (30_encoding.md R50, R58). -/
def decodeImage (read : Nat → Option Byte) (len : Nat) : Decoding :=
  match frameImage read len with
  | .truncated l => .truncated l
  | .frames fs =>
    match fs.mapM (frameRule read) with
    | none => .truncated len
    | some rules => .program rules

/-- The decoded program of a byte sequence, as `load_rom` is given one. -/
def decodeBytes (bytes : List Byte) : Decoding :=
  decodeImage (fun a => bytes[a]?) bytes.length

/-! ### The encoder -/

/-- The opcode of an instruction, the inverse of `cmd` (30_encoding.md R54, R60). -/
def encode : Instr → Nibble
  | .pushPop => 0b0000#4
  | .moveP0 => 0b0001#4
  | .moveN0 => 0b0010#4
  | .flipX => 0b0011#4
  | .move0N => 0b0100#4
  | .movePN => 0b0101#4
  | .moveNN => 0b0110#4
  | .mirror => 0b0111#4
  | .move0P => 0b1000#4
  | .movePP => 0b1001#4
  | .moveNP => 0b1010#4
  | .flipY => 0b1011#4
  | .color => 0b1100#4
  | .draw => 0b1101#4
  | .scaleP => 0b1110#4
  | .scaleN => 0b1111#4

/-- The payload bytes of a body: two opcodes a byte, the earlier one high; `pad` fills the low nibble
that an odd body leaves unused (30_encoding.md R48, R60). -/
def packBody (pad : Nibble) : List Instr → List Byte
  | [] => []
  | [c] => [joinNibbles (encode c) pad]
  | c :: d :: rest => joinNibbles (encode c) (encode d) :: packBody pad rest

/-- The frame of a rule: count, cycles, payload (30_encoding.md R48, R60). -/
def assembleRule (pad : Nibble) (r : Rule) : List Byte :=
  BitVec.ofNat 8 r.body.length :: BitVec.ofNat 8 r.cycles :: packBody pad r.body

/-- The frames of a program laid end to end (30_encoding.md R47, R60). The spec's listings take the
pad 0; any other value decodes alike (R49). -/
def assemble (pad : Nibble) (rules : List Rule) : List Byte :=
  rules.flatMap (assembleRule pad)

/-- A rule's line in the spec's listing notation (30_encoding.md R59, decision D12). -/
def ruleLine (r : Rule) : String :=
  "rule n=" ++ toString r.body.length ++ " cycles=" ++ toString r.cycles ++ ": " ++
    String.intercalate "; " (r.body.map Instr.mnemonic)

/-- The listing of a program that a zero count byte ends (30_encoding.md R59). It is notation alone:
nothing in the machine reads it. -/
def listing (rules : List Rule) : List String := rules.map ruleLine ++ ["end"]

/-! ### One word of the opcode table -/

/-- The smallest image that holds one opcode: one rule, one command, one cycle; the opcode is the high
nibble of the third byte, where the first command of an image stands (20_memory.md R36). -/
def wordImage (nbits w : Nat) : List Byte :=
  [1#8, 1#8, joinNibbles (BitVec.ofNat 4 (w % 2 ^ nbits)) 0#4]

/-- The instruction that the decoder reads from a row's word: the word's opcode is laid out as the
machine stores it, in the image `wordImage`, and that image is decoded. -/
def decodeTableWord (nbits w : Nat) : Option Instr :=
  match decodeBytes (wordImage nbits w) with
  | .program [⟨_, [i]⟩] => some i
  | _ => none

end Sys2Proof
end

