-- ==== Sys2Proof/Config.lean ====
section
/-! DEFINITION. Config.lean: the parameters of the machine (00_scope.md R5, R6, R8). They are no state
(10_state.md R12): no command and no host operation changes one. -/

namespace Sys2Proof.Config

/-- `WIDTH`, the pixel buffer's cells per row (00_scope.md R5). -/
def width : Nat := 272

/-- `HEIGHT`, the pixel buffer's rows (00_scope.md R5). -/
def height : Nat := 192

/-- `ROM_SIZE`, the capacity of the program store in bytes; `none` is infinity. The spec leaves it an
open parameter (00_scope.md R6, decision D2), so it has no body and nothing can be proved of its value.
DESIGN CHOICE (log 1): the operations that need it take it as an argument, and this constant is the one
that one machine is built with. -/
opaque romSize : Option Nat

/-- `X0`, the cursor's column after reset: `WIDTH div 2` (R8; the spec's decision D3, log 2). -/
def x0 : Int := (width / 2 : Nat)

/-- `Y0`, the cursor's row after reset: `HEIGHT div 2` (R8; the spec's decision D3, log 2). -/
def y0 : Int := (height / 2 : Nat)

/-- `FG`, the foreground value of the colour bit (R8; the spec's decision D4, log 3). -/
def fg : Bool := true

/-- `BG`, the background value, which a clear cell holds (R8; the spec's decision D4, log 3). -/
def bg : Bool := false

end Sys2Proof.Config
end

