-- ==== Sys2Proof/Machine/State.lean ====
section
/-! DEFINITION. Machine/State.lean: everything the spec gives the machine (10_state.md R12, "the
following, and nothing else"), as plain data, and its reset values (R26). -/

namespace Sys2Proof.Machine

/-- The program space: (address, byte) cells, addresses strictly rising. At an address that no cell
lists no byte exists (10_state.md R17, R26). -/
abbrev Memory := List Host.Cell

/-- The pixel buffer: (coordinate pair, value) cells, pairs strictly rising, no listed value 0. A pair
that no cell lists reads as 0, the value `reset` gives every cell (10_state.md R23, R26). -/
abbrev PixelBuffer := List ((Nat × Nat) × Bool)

/-- Why an operation ends in the machine's own fault. -/
inductive Fault where
  /-- `InvalidAddress(a)`, raised by `load_rom` alone, with the first address outside the region
  concerned (60_exceptions.md R104 to R106). It writes no state and the machine goes on (R107, R112).
  Safe: the spec's own fault. -/
  | invalidAddress (address : Nat)
deriving DecidableEq, Repr

/-- Why the model gives a step no meaning. -/
inductive Refusal where
  /-- An instruction whose arm of `exec` has no meaning yet; no arm is left so. Safe: the model stops. -/
  | notModelled (mnemonic : String)
  /-- Raised by the sequencer in a state whose ROM does not frame or lacks a byte below `ROM_LEN`.
  10_state.md R25 says that no operation leaves such a state. DESIGN CHOICE (log 15). Safe: the model
  stops. -/
  | unframedImage
deriving DecidableEq, Repr

/-- The whole state of the machine (10_state.md R12). -/
structure State where
  /-- `ROM`, the image last accepted by `load_rom` (R17). -/
  rom : Memory
  /-- `ROM_LEN`, the number of its bytes (R17). -/
  romLen : Nat
  /-- `RULE_PC`, the index of the current rule (R14). -/
  rulePc : Nat
  /-- `PC`, the position in the current rule's sequence of `n * cycles` commands (R15). -/
  pc : Nat
  /-- `CX`, the cursor's horizontal coordinate, an integer without bound (R18). -/
  cx : Int
  /-- `CY`, the cursor's vertical coordinate, an integer without bound (R18). -/
  cy : Int
  /-- `FLIPX`, the horizontal step multiplier (R19). -/
  flipX : Sign
  /-- `FLIPY`, the vertical step multiplier (R19). -/
  flipY : Sign
  /-- `MIRROR`, whether Moves swap their payload (R20). -/
  mirror : Bool
  /-- `DRAW`, whether Moves paint (R21). -/
  draw : Bool
  /-- `COLOR`, the active colour index (R22). -/
  color : Bool
  /-- `PB`, the pixel buffer (R23). -/
  pb : PixelBuffer
deriving DecidableEq, Repr

/-- The state after `reset` (10_state.md R26, 70_reset_and_hazards.md R119): the cursor centred, the
buffer clear, flags at their construction values, the empty program. -/
def State.reset : State where
  rom := []
  romLen := 0
  rulePc := 0
  pc := 0
  cx := Config.x0
  cy := Config.y0
  flipX := .plus
  flipY := .plus
  mirror := false
  draw := true
  color := Config.fg
  pb := []

end Sys2Proof.Machine
end

