-- ==== Sys2Proof/Machine/Ops.lean ====
section
/-! DEFINITION. Machine/Ops.lean: the named operations over the two memories, over the cursor and over
the decode position, and the raising of the machine's one fault. -/

namespace Sys2Proof.Machine

/-! ### The program space (20_memory.md R31, R32) -/

/-- `MemRead(ROM, a, 1)`: the byte at an address; `none` where no byte exists (00_scope.md R10). -/
def Memory.read : Memory → Nat → Option Byte
  | [], _ => none
  | (a, b) :: rest, addr => if a = addr then some b else Memory.read rest addr

/-- The cells of a byte sequence from address `base` up. -/
def Memory.ofBytesFrom (base : Nat) : List Byte → Memory
  | [] => []
  | b :: bs => (base, b) :: Memory.ofBytesFrom (base + 1) bs

/-- The program space that holds an image: `ROM[a] <- bytes[a]` for `0 <= a < L` (20_memory.md R32).
It is the only write the program space has (R37). -/
def Memory.ofBytes (bytes : List Byte) : Memory := Memory.ofBytesFrom 0 bytes

/-- The canonical form: addresses strictly rising. No listed byte can equal what an unlisted address
reads as, since that is no byte at all. -/
abbrev Memory.wf (m : Memory) : Prop := m.Pairwise fun c d => c.1 < d.1

/-- The addresses that hold a byte are exactly `0 .. len-1` (20_memory.md R32: the valid ones). -/
abbrev Memory.dense (m : Memory) (len : Nat) : Prop := m.map Prod.fst = List.range len

/-! ### The picture space (20_memory.md R33, R34) -/

/-- The order in which the cells are listed: by the first coordinate, then by the second. It is the
model's own and not observable: the spec gives the grid no layout (log 5). -/
def cellBefore (p q : Nat × Nat) : Bool :=
  decide (p.1 < q.1) || (decide (p.1 = q.1) && decide (p.2 < q.2))

/-- `PB[x][y]`. -/
def PixelBuffer.read : PixelBuffer → Nat × Nat → Bool
  | [], _ => false
  | (q, v) :: rest, p => if q = p then v else PixelBuffer.read rest p

/-- The listing without the cell `p`. -/
def PixelBuffer.erase (pb : PixelBuffer) (p : Nat × Nat) : PixelBuffer :=
  pb.filter fun c => decide (c.1 ≠ p)

/-- The listing with the cell `p` put in its place, holding 1. -/
def PixelBuffer.insert : PixelBuffer → Nat × Nat → PixelBuffer
  | [], p => [(p, true)]
  | (q, v) :: rest, p =>
    if cellBefore q p then (q, v) :: PixelBuffer.insert rest p else (p, true) :: (q, v) :: rest

/-- `MemWrite(PB, (x, y), 1, v)` (00_scope.md R10), keeping the canonical form: writing 0 takes a
listed cell away. -/
def PixelBuffer.write (pb : PixelBuffer) (p : Nat × Nat) (v : Bool) : PixelBuffer :=
  if v then PixelBuffer.insert (PixelBuffer.erase pb p) p else PixelBuffer.erase pb p

/-- The canonical form: pairs strictly rising and no listed value 0. -/
abbrev PixelBuffer.wf (pb : PixelBuffer) : Prop :=
  (pb.Pairwise fun c d => cellBefore c.1 d.1 = true) ∧ ∀ c ∈ pb, c.2 = true

/-- No listed cell lies outside `[0, WIDTH) x [0, HEIGHT)` (10_state.md R25 clause 7). -/
abbrev PixelBuffer.inGrid (pb : PixelBuffer) : Prop :=
  ∀ c ∈ pb, c.1.1 < Config.width ∧ c.1.2 < Config.height

/-! ### Updates of the state -/

/-- A write to the sequencer, `RULE_PC` and `PC` (00_scope.md R10, `pc <- target`). -/
def State.withPosition (s : State) (rulePc pc : Nat) : State :=
  { s with rulePc := rulePc, pc := pc }

/-- `CX <- nx; CY <- ny`. -/
def State.withCursor (s : State) (nx ny : Int) : State :=
  { s with cx := nx, cy := ny }

/-- The write of one cell of `PB`. -/
def State.withCell (s : State) (p : Nat × Nat) (v : Bool) : State :=
  { s with pb := PixelBuffer.write s.pb p v }

/-- The four writes of a successful `load_rom`: the image and its length in, the decode position to the
first command; the drawing state is not touched (40_sequencer.md R76). -/
def State.withImage (s : State) (bytes : List Byte) : State :=
  { s with rom := Memory.ofBytes bytes, romLen := bytes.length, rulePc := 0, pc := 0 }

/-! ### Raising the fault -/

/-- `raise InvalidAddress(a)`: the operation ends at once with the fault as its result and writes no
state (60_exceptions.md R107). There is no trap entry, nothing is saved and there is no return
(R111, R112), so this is the whole of taking an exception; the state the operation was called in
stands (Machine/HostOps.lean, `perform`). -/
def raiseInvalidAddress (a : Nat) : Host.Outcome State Fault Refusal :=
  .fault (.invalidAddress a)

/-- The number reported for a fault: `InvalidAddress` is 1 (60_exceptions.md R104; decision D9, log 8). -/
def Fault.code : Fault → Nat
  | .invalidAddress _ => 1

end Sys2Proof.Machine
end

