-- ==== Sys2Proof/Machine/Operands.lean ====
section
/-! DEFINITION. Machine/Operands.lean: the implicit operands of Move: the payload as integers, the mirror
swap, the flip, the target position and the bounds test (41_move.md R85). -/

namespace Sys2Proof.Machine

/-- A payload component as an integer (30_encoding.md R54). -/
def deltaInt : Delta → Int
  | .minus => -1
  | .zero => 0
  | .plus => 1

/-- A flip flag as an integer (10_state.md R19). -/
def signInt : Sign → Int
  | .plus => 1
  | .minus => -1

/-- Step 1 of R85: the payload as the mirror flag leaves it, swapped when `MIRROR = 1`. -/
def mirrored (s : State) (dx dy : Delta) : Delta × Delta :=
  if s.mirror then (dy, dx) else (dx, dy)

/-- Step 2 of R85: the effective displacement `(ex, ey)`, each axis times its own sign, after the
swap. -/
def displacement (s : State) (dx dy : Delta) : Int × Int :=
  (deltaInt (mirrored s dx dy).1 * signInt s.flipX, deltaInt (mirrored s dx dy).2 * signInt s.flipY)

/-- Step 3 of R85: the new cursor position, in the integers: no width, wrap, saturation or clamp. -/
def moveTarget (s : State) (dx dy : Delta) : Int × Int :=
  (s.cx + (displacement s dx dy).1, s.cy + (displacement s dx dy).2)

/-- The bounds `[0, WIDTH) x [0, HEIGHT)` of the picture space (20_memory.md R33, R34). -/
def inBounds (p : Int × Int) : Bool :=
  decide (0 ≤ p.1) && decide (p.1 < Config.width) && decide (0 ≤ p.2) && decide (p.2 < Config.height)

/-- The cell that a position in bounds names; `none` for a position that is no address (20_memory.md
R34). -/
def cellAt (p : Int × Int) : Option (Nat × Nat) :=
  if inBounds p then some (p.1.toNat, p.2.toNat) else none

/-- The cell that a Move stores to: the one at the new position, when drawing is on and that position
is in bounds (20_memory.md R46); otherwise it stores nothing. -/
def paintedCell (s : State) (dx dy : Delta) : Option (Nat × Nat) :=
  if s.draw then cellAt (moveTarget s dx dy) else none

end Sys2Proof.Machine
end

