-- ==== Sys2Proof/Machine/Move.lean ====
section
/-! DEFINITION. Machine/Move.lean: the Move family (41_move.md R85 to R93). -/

namespace Sys2Proof.Machine

/-- Step 4 of R85: the paint of the new position with the active colour, when the Move stores at all. -/
def paint (s : State) (cell : Option (Nat × Nat)) : State :=
  match cell with
  | none => s
  | some p => s.withCell p s.color

/-- `Move(dx, dy)` (R85): the cursor goes to its target, then the cell there is painted. The order is
the spec's decision D14 (log 11). -/
def moveBy (s : State) (dx dy : Delta) : State :=
  paint (s.withCursor (moveTarget s dx dy).1 (moveTarget s dx dy).2) (paintedCell s dx dy)

/-- Move(1,0), opcode 0x1 (R86). -/
def execMoveP0 (s : State) : Host.Outcome State Fault Refusal := .next (moveBy s .plus .zero)

/-- Move(-1,0), opcode 0x2 (R87). -/
def execMoveN0 (s : State) : Host.Outcome State Fault Refusal := .next (moveBy s .minus .zero)

/-- Move(0,-1), opcode 0x4 (R88). -/
def execMove0N (s : State) : Host.Outcome State Fault Refusal := .next (moveBy s .zero .minus)

/-- Move(1,-1), opcode 0x5 (R89). -/
def execMovePN (s : State) : Host.Outcome State Fault Refusal := .next (moveBy s .plus .minus)

/-- Move(-1,-1), opcode 0x6 (R90). -/
def execMoveNN (s : State) : Host.Outcome State Fault Refusal := .next (moveBy s .minus .minus)

/-- Move(0,1), opcode 0x8 (R91). -/
def execMove0P (s : State) : Host.Outcome State Fault Refusal := .next (moveBy s .zero .plus)

/-- Move(1,1), opcode 0x9 (R92). -/
def execMovePP (s : State) : Host.Outcome State Fault Refusal := .next (moveBy s .plus .plus)

/-- Move(-1,1), opcode 0xA (R93). -/
def execMoveNP (s : State) : Host.Outcome State Fault Refusal := .next (moveBy s .minus .plus)

end Sys2Proof.Machine
end

