-- ==== Sys2Proof/Machine/Reserved.lean ====
section
/-! DEFINITION. Machine/Reserved.lean: PushPop and Scale, which change no state (43_reserved.md R100 to
R103): no stack, no saved cursor, no step length. -/

namespace Sys2Proof.Machine

/-- PushPop, opcode 0x0: no state change (R101). -/
def execPushPop (s : State) : Host.Outcome State Fault Refusal := .next s

/-- Scale(1), opcode 0xE: the payload is ignored (R102). -/
def execScaleP (s : State) : Host.Outcome State Fault Refusal := .next s

/-- Scale(-1), opcode 0xF: the payload is ignored (R103). -/
def execScaleN (s : State) : Host.Outcome State Fault Refusal := .next s

end Sys2Proof.Machine
end

