-- ==== Sys2Proof/Machine/Flags.lean ====
section
/-! DEFINITION. Machine/Flags.lean: the five mode flags and the one write each has (42_toggles.md R94 to
R99). None is a condition code (10_state.md, section 4). -/

namespace Sys2Proof.Machine

/-- `-s`, the other sign (00_scope.md R10). -/
def negSign : Sign → Sign
  | .plus => .minus
  | .minus => .plus

/-- `FLIPX <- -FLIPX` when the payload flag is set (R94). -/
def State.flipXWhen (s : State) (fx : Bool) : State :=
  { s with flipX := if fx then negSign s.flipX else s.flipX }

/-- `FLIPY <- -FLIPY` when the payload flag is set (R94). -/
def State.flipYWhen (s : State) (fy : Bool) : State :=
  { s with flipY := if fy then negSign s.flipY else s.flipY }

/-- `MIRROR <- not MIRROR` (R97). -/
def State.toggleMirror (s : State) : State := { s with mirror := !s.mirror }

/-- `COLOR <- not COLOR` (R98). -/
def State.toggleColor (s : State) : State := { s with color := !s.color }

/-- `DRAW <- not DRAW` (R99). -/
def State.toggleDraw (s : State) : State := { s with draw := !s.draw }

end Sys2Proof.Machine
end

