-- ==== Sys2Proof/Machine/Toggles.lean ====
section
/-! DEFINITION. Machine/Toggles.lean: Flip, Mirror, Color and Draw (42_toggles.md R94 to R99). -/

namespace Sys2Proof.Machine

/-- `Flip(fx, fy)`: the sign of each axis whose flag is set is negated, the other axis is left alone
(R94). -/
def flipBy (s : State) (fx fy : Bool) : State := (s.flipXWhen fx).flipYWhen fy

/-- Flip(1,0), opcode 0x3 (R95). -/
def execFlipX (s : State) : Host.Outcome State Fault Refusal := .next (flipBy s true false)

/-- Flip(0,1), opcode 0xB (R96). -/
def execFlipY (s : State) : Host.Outcome State Fault Refusal := .next (flipBy s false true)

/-- Mirror, opcode 0x7 (R97). -/
def execMirror (s : State) : Host.Outcome State Fault Refusal := .next s.toggleMirror

/-- Color, opcode 0xC (R98). -/
def execColor (s : State) : Host.Outcome State Fault Refusal := .next s.toggleColor

/-- Draw, opcode 0xD (R99). -/
def execDraw (s : State) : Host.Outcome State Fault Refusal := .next s.toggleDraw

end Sys2Proof.Machine
end

