-- ==== Sys2Proof/Machine/Dispatch.lean ====
section
/-! DEFINITION. Machine/Dispatch.lean: one arm for each instruction (40_sequencer.md R73). -/

namespace Sys2Proof.Machine

def exec (i : Instr) (s : State) : Host.Outcome State Fault Refusal :=
  match i with
  | .pushPop => Sys2Proof.Machine.execPushPop s
  | .moveP0 => Sys2Proof.Machine.execMoveP0 s
  | .moveN0 => Sys2Proof.Machine.execMoveN0 s
  | .flipX => Sys2Proof.Machine.execFlipX s
  | .move0N => Sys2Proof.Machine.execMove0N s
  | .movePN => Sys2Proof.Machine.execMovePN s
  | .moveNN => Sys2Proof.Machine.execMoveNN s
  | .mirror => Sys2Proof.Machine.execMirror s
  | .move0P => Sys2Proof.Machine.execMove0P s
  | .movePP => Sys2Proof.Machine.execMovePP s
  | .moveNP => Sys2Proof.Machine.execMoveNP s
  | .flipY => Sys2Proof.Machine.execFlipY s
  | .color => Sys2Proof.Machine.execColor s
  | .draw => Sys2Proof.Machine.execDraw s
  | .scaleP => Sys2Proof.Machine.execScaleP s
  | .scaleN => Sys2Proof.Machine.execScaleN s

end Sys2Proof.Machine
end

