-- ==== Sys2Proof/Machine/Sequencer.lean ====
section
/-! DEFINITION. Machine/Sequencer.lean: how the next command is found (40_sequencer.md R67 to R70). -/

namespace Sys2Proof.Machine

/-- `Frame(ROM, ROM_LEN)`, the framing of the loaded image (30_encoding.md R52). -/
def State.framing (s : State) : Framing := frameImage (Memory.read s.rom) s.romLen

/-- The decoded program of the loaded image (10_state.md R17). -/
def State.decoding (s : State) : Decoding := decodeImage (Memory.read s.rom) s.romLen

/-- The number of commands a frame yields, `n * cycles`, exact (40_sequencer.md R68, R83). -/
def ruleLength (f : RuleFrame) : Nat := f.n * f.cycles

/-- `RuleCmd(r, p)`: the command at position `p` of a rule is body element `p mod n` (R67). -/
def ruleCmd (read : Nat → Option Byte) (f : RuleFrame) (p : Nat) : Option Instr :=
  (nib read (f.base + 2) (p % f.n)).map cmd

/-- The loop of `Next()` over the rules from `RULE_PC` on (R70): exhausted rules are passed over, each
adding one to `RULE_PC` and setting `PC` to 0. It gives the rule that has a command left, if any, and
the decode position reached. -/
def seek : List RuleFrame → Nat → Nat → Option RuleFrame × Nat × Nat
  | [], r, p => (none, r, p)
  | f :: rest, r, p => if p < ruleLength f then (some f, r, p) else seek rest (r + 1) 0

/-- What one pull gives: the state with the decode position moved and, when there is one, the command.
`unreadable` is the refusal `unframedImage`. -/
inductive Pull where
  | command (c : Instr) (s : State)
  | exhausted (s : State)
  | unreadable
deriving DecidableEq, Repr

/-- `Next()`, the pull of one command (R70). -/
def State.pull (s : State) : Pull :=
  match s.framing with
  | .truncated _ => .unreadable
  | .frames fs =>
    match seek (fs.drop s.rulePc) s.rulePc s.pc with
    | (none, r, p) => .exhausted (s.withPosition r p)
    | (some f, r, p) =>
      match ruleCmd (Memory.read s.rom) f p with
      | none => .unreadable
      | some c => .command c (s.withPosition r (p + 1))

end Sys2Proof.Machine
end

