-- ==== Sys2Proof/Machine/Tick.lean ====
section
/-! DEFINITION. Machine/Tick.lean: the host operation `tick` (40_sequencer.md R72). -/

namespace Sys2Proof.Machine

/-- What a `tick` gives back: the bit `halted`, which is a result and no state (10_state.md R28), and
the state it leaves. -/
structure Ticked where
  halted : Bool
  state : State
deriving DecidableEq, Repr

/-- The tick's result when the command it pulled ended with an outcome: `halted = 0`. -/
def ticked : Host.Outcome State Fault Refusal → Host.Outcome Ticked Fault Refusal
  | .next t => .next ⟨false, t⟩
  | .fault r => .fault r
  | .refused r => .refused r

/-- `tick()` (R72): pull one command and apply it, or report `halted = 1` when none is left; only the
decode position may then have moved (R74; 90_conflicts.md C5, log 17). -/
def tick (s : State) : Host.Outcome Ticked Fault Refusal :=
  match s.pull with
  | .unreadable => .refused .unframedImage
  | .exhausted s' => .next ⟨true, s'⟩
  | .command c s' => ticked (exec c s')

/-- The state a tick leaves, as the outcome of a step. -/
def tickedState : Host.Outcome Ticked Fault Refusal → Host.Outcome State Fault Refusal
  | .next r => .next r.state
  | .fault r => .fault r
  | .refused r => .refused r

end Sys2Proof.Machine
end

