-- ==== Sys2Proof/Machine/HostOps.lean ====
section
/-! DEFINITION. Machine/HostOps.lean: the host's other operations and a host's sequence of them
(00_scope.md R9, 70_reset_and_hazards.md R132). -/

namespace Sys2Proof.Machine

/-- Whether an image of `len` bytes is longer than a program store of capacity `romSize` (`none` is
infinity): the store's capacity when it is (60_exceptions.md R105). -/
def overLong (romSize : Option Nat) (len : Nat) : Option Nat :=
  match romSize with
  | none => none
  | some size => if size < len then some size else none

/-- `load_rom(bytes)` (40_sequencer.md R76): the size check, then the framing check (60_exceptions.md
R110), then the four writes. A fault writes nothing (R107). -/
def loadRom (romSize : Option Nat) (bytes : List Byte) (s : State) : Host.Outcome State Fault Refusal :=
  match overLong romSize bytes.length with
  | some size => raiseInvalidAddress size
  | none =>
    match frameImage (fun a => bytes[a]?) bytes.length with
    | .truncated len => raiseInvalidAddress len
    | .frames _ => .next (s.withImage bytes)

/-- `cursor()`: the pair `(CX, CY)` (40_sequencer.md R78). -/
def State.cursor (s : State) : Int × Int := (s.cx, s.cy)

/-- `pixel_buffer()`: the whole grid, entry `x` of the list holding the cells `PB[x][0]`, `PB[x][1]`, …
(40_sequencer.md R79; the nesting is the pair's order and no memory layout, log 5). -/
def State.pixelBuffer (s : State) : List (List Bool) :=
  (List.range Config.width).map fun x =>
    (List.range Config.height).map fun y => PixelBuffer.read s.pb (x, y)

/-- The five operations of the host interface (00_scope.md R9). -/
inductive HostOp where
  | reset
  | loadRom (bytes : List Byte)
  | tick
  | cursor
  | pixelBuffer
deriving DecidableEq, Repr

/-- What an operation gives the host back (00_scope.md R9): nothing, `ok`, `fault InvalidAddress(a)`,
`halted`, the cursor pair or the grid. -/
inductive OpResult where
  | nothing
  | ok
  | fault (f : Fault)
  | halted (h : Bool)
  | cursor (x y : Int)
  | grid (cells : List (List Bool))
deriving DecidableEq, Repr

/-- The number that a `load_rom` reports with its result: 0 for `ok`, the fault's own number for a
fault (60_exceptions.md R104; decision D9, log 8). The results of the other operations have none. -/
def OpResult.code : OpResult → Option Nat
  | .nothing => none
  | .ok => some 0
  | .fault f => some f.code
  | .halted _ => none
  | .cursor _ _ => none
  | .grid _ => none

/-- The result of a `load_rom` for the host: a fault leaves the state the operation was called in
(60_exceptions.md R107, R111). -/
def loadResult (s : State) : Host.Outcome State Fault Refusal → Host.Outcome (OpResult × State) Fault Refusal
  | .next t => .next (.ok, t)
  | .fault f => .next (.fault f, s)
  | .refused r => .refused r

/-- The result of a `tick` for the host. -/
def tickResult : Host.Outcome Ticked Fault Refusal → Host.Outcome (OpResult × State) Fault Refusal
  | .next r => .next (.halted r.halted, r.state)
  | .fault f => .fault f
  | .refused r => .refused r

/-- One host operation, atomic (00_scope.md R9), on a machine whose program store holds `romSize`
bytes: its result and the state it leaves. The fault of a `load_rom` is a result, and the machine goes
on from the old state (60_exceptions.md R107, R112). -/
def perform (romSize : Option Nat) (op : HostOp) (s : State) : Host.Outcome (OpResult × State) Fault Refusal :=
  match op with
  | .reset => .next (.nothing, State.reset)
  | .loadRom bytes => loadResult s (loadRom romSize bytes s)
  | .tick => tickResult (tick s)
  | .cursor => .next (.cursor s.cursor.1 s.cursor.2, s)
  | .pixelBuffer => .next (.grid s.pixelBuffer, s)

/-- A host's operations, one after the other (20_memory.md R40; 70_reset_and_hazards.md R126), with
their results in order. -/
def session (romSize : Option Nat) : List HostOp → State → Host.Outcome (List OpResult × State) Fault Refusal
  | [], s => .next ([], s)
  | op :: ops, s =>
    match perform romSize op s with
    | .fault f => .fault f
    | .refused r => .refused r
    | .next (result, t) =>
      match session romSize ops t with
      | .fault f => .fault f
      | .refused r => .refused r
      | .next (results, u) => .next (result :: results, u)

/-- The machine this package builds: a host's operations with the capacity that Config leaves open. -/
def machineSession (ops : List HostOp) (s : State) : Host.Outcome (List OpResult × State) Fault Refusal :=
  session Config.romSize ops s

end Sys2Proof.Machine
end

