-- ==== Sys2Proof/Machine/Step.lean ====
section
/-! DEFINITION. Machine/Step.lean: one step of the machine is one `tick` (00_scope.md R4; log 13). -/

namespace Sys2Proof.Machine

/-- One step: one `tick`, whose state is the next one. A halting tick is a step too: the machine is not
stuck (40_sequencer.md R74). The bit `halted` is in `tick`'s own result. -/
def step (s : State) : Host.Outcome State Fault Refusal := tickedState (tick s)

/-- The state whose very next step runs one instruction of the opcode table: the one-command image
`wordImage` loaded as a successful `load_rom` loads it (log 16). -/
def State.withFetchWord (s : State) (nbits w : Nat) : State := s.withImage (wordImage nbits w)

end Sys2Proof.Machine
end

