-- ==== Sys2Proof/Machine/Commands.lean ====
section
/-! DEFINITION. Machine/Commands.lean: `Exec(c)` as the closed case analysis over the seven kinds
(40_sequencer.md R73), for every payload of the kinds' domains, the ones without an opcode included
(42_toggles.md R94). -/

namespace Sys2Proof.Machine

/-- `Exec(c)` (R73): what applying a command does to the state. -/
def applyCommand (c : Command) (s : State) : State :=
  match c with
  | .move dx dy => moveBy s dx dy
  | .flip fx fy => flipBy s fx fy
  | .mirror => s.toggleMirror
  | .color => s.toggleColor
  | .draw => s.toggleDraw
  | .pushPop => s
  | .scale _ => s

end Sys2Proof.Machine
end

