-- ==== Sys2Proof/Safety.lean ====
section
/-! DEFINITION. Safety.lean: what counts as a safe run, and the terms the statements use: the invariant
of 10_state.md R25, the command sequence of a program (40_sequencer.md R71), the drawing state and what
the host can observe. -/

namespace Sys2Proof.Machine

/-! ### The invariant (10_state.md R25) -/

/-- Clause 1: the image fits a program store of capacity `romSize` (`none` is infinity). -/
def fits (romSize : Option Nat) (len : Nat) : Prop := ∀ size, romSize = some size → len ≤ size

/-- Clauses 3 to 5: the decode position lies in the frames of the image. -/
def positionIn (fs : List RuleFrame) (rulePc pc : Nat) : Prop :=
  rulePc ≤ fs.length ∧ (∀ f, fs[rulePc]? = some f → pc ≤ ruleLength f) ∧ (rulePc = fs.length → pc = 0)

/-- The invariant of R25 for a store of capacity `romSize`. Clause 6 (the flips are +1 or -1) and the
first half of clause 7 (a cell is 0 or 1) hold by the fields' types; the memories' canonical forms are
the model's own clauses. -/
structure State.Inv (romSize : Option Nat) (s : State) : Prop where
  /-- Clause 1. -/
  romFits : fits romSize s.romLen
  /-- Bytes exist at exactly the valid addresses (20_memory.md R32). -/
  romDense : Memory.dense s.rom s.romLen
  /-- Clauses 2 to 5. -/
  framed : ∃ fs, s.framing = .frames fs ∧ positionIn fs s.rulePc s.pc
  /-- The picture's canonical form. -/
  pbCanonical : PixelBuffer.wf s.pb
  /-- Clause 7. -/
  pbInGrid : PixelBuffer.inGrid s.pb

/-- A step is safe when it ends in a next state: no fault and no refusal (60_exceptions.md R104 class
(b), R108). -/
def safeStep (s : State) : Prop := ∃ t, step s = .next t

/-! ### The command sequence (40_sequencer.md R71) -/

/-- The commands one rule yields: its body repeated `cycles` times (R68). -/
def ruleCommands (r : Rule) : List Instr := (List.replicate r.cycles r.body).flatten

/-- `Seq`, the whole sequence of commands of a program (R71). -/
def commandSeq (rules : List Rule) : List Instr := rules.flatMap ruleCommands

/-- `TOTAL`, the number of commands of a program, `sum over r of n_r * cycles_r` (R71). -/
def totalCommands (rules : List Rule) : Nat := (rules.map fun r => r.body.length * r.cycles).sum

/-- The index in `Seq` that a decode position stands at: the commands of the rules before `RULE_PC`, and
`PC` of the current one. -/
def seqIndex (rules : List Rule) (s : State) : Nat := totalCommands (rules.take s.rulePc) + s.pc

/-- The commands a state has left: `Seq` from its decode position on. -/
def remaining (rules : List Rule) (s : State) : List Instr := (commandSeq rules).drop (seqIndex rules s)

/-- Commands applied in order, each by `exec`. -/
def execAll : List Instr → State → Host.Outcome State Fault Refusal
  | [], s => .next s
  | i :: is, s =>
    match exec i s with
    | .next t => execAll is t
    | .fault f => .fault f
    | .refused r => .refused r

/-! ### The source's own form of the program (10_state.md R14 to R16)

The source keeps the decoded rules and one position in each of them. The model's state keeps the raw
image and one pair (RULE_PC, PC); a statement says that the two move alike. -/

/-- A rule with its own position in its `n * cycles` commands (R16). -/
structure SourceRule where
  rule : Rule
  position : Nat
deriving DecidableEq, Repr

/-- The source's program: the rules before `rule_pc` and the rules from it on. -/
structure SourceProgram where
  passed : List SourceRule
  ahead : List SourceRule
deriving DecidableEq, Repr

/-- A rule's iterator: body element `position mod n`, or exhausted (40_sequencer.md R68). -/
def sourceRuleNext (r : SourceRule) : Option (Instr × SourceRule) :=
  if r.position < r.rule.body.length * r.rule.cycles then
    (r.rule.body[r.position % r.rule.body.length]?).map fun c => (c, ⟨r.rule, r.position + 1⟩)
  else none

/-- The program's iterator: it delegates to the current rule, advances past an exhausted one and
retries (40_sequencer.md R69, R70). -/
def sourceNextFrom (passed : List SourceRule) : List SourceRule → Option Instr × SourceProgram
  | [] => (none, ⟨passed, []⟩)
  | r :: rest =>
    match sourceRuleNext r with
    | some (c, r') => (some c, ⟨passed, r' :: rest⟩)
    | none => sourceNextFrom (passed ++ [r]) rest

/-- The source's program pulls its next command. -/
def sourceNext (p : SourceProgram) : Option Instr × SourceProgram := sourceNextFrom p.passed p.ahead

/-- The source's form of a decode position (R16): rules before `RULE_PC` stand at their end, the current
one at `PC`, the later ones at 0. -/
def sourceForm (rules : List Rule) (rulePc pc : Nat) : SourceProgram where
  passed := (rules.take rulePc).map fun r => ⟨r, r.body.length * r.cycles⟩
  ahead :=
    match rules.drop rulePc with
    | [] => []
    | r :: rest => ⟨r, pc⟩ :: rest.map fun r => ⟨r, 0⟩

/-! ### What a program can change and what the host can see -/

/-- Two states with the same drawing state: `CX`, `CY`, the flags and `PB` (00_scope.md glossary). It is
all that a tick can change and the host can observe later (40_sequencer.md R74). -/
def sameDrawing (s t : State) : Prop :=
  t.cx = s.cx ∧ t.cy = s.cy ∧ t.flipX = s.flipX ∧ t.flipY = s.flipY ∧ t.mirror = s.mirror ∧
    t.draw = s.draw ∧ t.color = s.color ∧ t.pb = s.pb

/-- Two states with the same five mode flags (10_state.md, section 4). -/
def sameFlags (s t : State) : Prop :=
  t.flipX = s.flipX ∧ t.flipY = s.flipY ∧ t.mirror = s.mirror ∧ t.draw = s.draw ∧ t.color = s.color

/-- Two states with the same loaded image (10_state.md R17). -/
def sameImage (s t : State) : Prop := t.rom = s.rom ∧ t.romLen = s.romLen

/-- Two states with the same decode position (00_scope.md glossary). -/
def samePosition (s t : State) : Prop := t.rulePc = s.rulePc ∧ t.pc = s.pc

end Sys2Proof.Machine
end

