-- ==== Sys2Proof/Certificates/Slice0/Obligations.lean ====
section
/-! DEFINITION. Certificates/Slice0/Obligations.lean: the statements for the provers. Each docstring names
the rule of spec/ that the statement formalises. Where a clause rests on a choice that the spec marks as
its own (a decision D<n>), the docstring names it and the log entry. -/

open Sys2Proof Sys2Proof.Machine

/-- O1. R54: the sixteen rows of the opcode map; the mapping is total and gives each value exactly one command. -/
def Obligations.OpcodeTableMapsEachValue : Prop :=
  let rows : List (Nibble × Instr × Command) :=
    [(0x0#4, .pushPop, .pushPop), (0x1#4, .moveP0, .move .plus .zero), (0x2#4, .moveN0, .move .minus .zero),
     (0x3#4, .flipX, .flip true false), (0x4#4, .move0N, .move .zero .minus), (0x5#4, .movePN, .move .plus .minus),
     (0x6#4, .moveNN, .move .minus .minus), (0x7#4, .mirror, .mirror), (0x8#4, .move0P, .move .zero .plus),
     (0x9#4, .movePP, .move .plus .plus), (0xA#4, .moveNP, .move .minus .plus), (0xB#4, .flipY, .flip false true),
     (0xC#4, .color, .color), (0xD#4, .draw, .draw), (0xE#4, .scaleP, .scale .plus), (0xF#4, .scaleN, .scale .minus)]
  (∀ row ∈ rows, cmd row.1 = row.2.1 ∧ row.2.1.command = row.2.2 ∧ encode row.2.1 = row.1) ∧
    (∀ op : Nibble, ∃ row ∈ rows, row.1 = op) ∧ ∀ i : Instr, ∃ row ∈ rows, row.2.1 = i

/-- O2. R55: `Cmd(v) = Cmd(v[3:0])` for any natural `v`. -/
def Obligations.OnlyTheLowFourBitsSelect : Prop :=
  ∀ v : Nat, cmdOfNat v = cmdOfNat (v % 16) ∧ (encode (cmdOfNat v)).toNat = v % 16

/-- O3. R47 to R50, on byte lists: a characterisation of the decoder without offsets. The rejection of a truncated image is the spec's own decision D10 (log 9). -/
def Obligations.DecodingFollowsTheGrammar : Prop :=
  decodeBytes [] = .program [] ∧
  (∀ rest : List Byte, decodeBytes (0#8 :: rest) = .program []) ∧
  (∀ (count cycles : Byte) (payload rest : List Byte), count ≠ 0#8 →
    payload.length = (count.toNat + 1) / 2 →
    decodeBytes (count :: cycles :: (payload ++ rest)) =
      match decodeBytes rest with
      | .program rules =>
        .program (⟨cycles.toNat,
          (payload.flatMap fun b => [cmd (highNibble b), cmd (lowNibble b)]).take count.toNat⟩ :: rules)
      | .truncated len => .truncated (2 + payload.length + len)) ∧
  ∀ (count : Byte) (rest : List Byte), count ≠ 0#8 → rest.length < 1 + (count.toNat + 1) / 2 →
    decodeBytes (count :: rest) = .truncated (1 + rest.length)

/-- O4. R60 is the inverse of R48 to R54; the pad nibble is free (R49) and bytes after the terminator are never framed (R50). -/
def Obligations.DecodingAnAssembledProgramGivesItBack : Prop :=
  ∀ (pad : Nibble) (rules : List Rule) (tail : List Byte), programWellFormed rules = true →
    (tail = [] ∨ tail.head? = some 0#8) → decodeBytes (assemble pad rules ++ tail) = .program rules

/-- O5. R48 (count 1 to 255, cycles 0 to 255, a frame is at least 3 bytes) and R51 (at most `L div 3` entries). -/
def Obligations.DecodedRulesAreWellFormed : Prop :=
  ∀ (bytes : List Byte) (rules : List Rule), decodeBytes bytes = .program rules →
    programWellFormed rules = true ∧ rules.length ≤ bytes.length / 3 ∧
      ∀ pad : Nibble, (assemble pad rules).length ≤ bytes.length

/-- O6. R131: prepending a rule to a ROM shifts every later frame and changes no later command. The clause on truncated images rests on the spec's own decision D10 (log 9); R131 says nothing of them. -/
def Obligations.APrependedRuleChangesNoLaterRule : Prop :=
  ∀ (pad : Nibble) (r : Rule) (bytes : List Byte), r.wellFormed = true →
    (∀ rules, decodeBytes bytes = .program rules →
      decodeBytes (assembleRule pad r ++ bytes) = .program (r :: rules)) ∧
    ∀ len, decodeBytes bytes = .truncated len →
      decodeBytes (assembleRule pad r ++ bytes) = .truncated ((assembleRule pad r).length + len)

/-- O7. R70, the three branches of the loop, with R67's command at a position. The `unreadable` branch is the model's DESIGN CHOICE of log 15, for states that R25 rules out. -/
def Obligations.NextPullsAsTheLoopSays : Prop :=
  ∀ (s : State) (fs : List RuleFrame), s.framing = .frames fs →
    (fs.length ≤ s.rulePc → s.pull = .exhausted s) ∧
    (∀ f, fs[s.rulePc]? = some f → s.pc < f.n * f.cycles →
      s.pull =
        match (nib (Memory.read s.rom) (f.base + 2) (s.pc % f.n)).map cmd with
        | some c => .command c { s with pc := s.pc + 1 }
        | none => .unreadable) ∧
    ∀ f, fs[s.rulePc]? = some f → f.n * f.cycles ≤ s.pc →
      s.pull = ({ s with rulePc := s.rulePc + 1, pc := 0 } : State).pull

/-- O8. R67, R70, R72: what `step` adds around `exec` is the move of PC past the nibble. -/
def Obligations.AStepRunsTheInstructionAtTheDecodePosition : Prop :=
  ∀ (s : State) (fs : List RuleFrame) (f : RuleFrame) (b : Byte), s.framing = .frames fs →
    fs[s.rulePc]? = some f → s.pc < f.n * f.cycles →
    Memory.read s.rom (f.base + 2 + (s.pc % f.n) / 2) = some b →
    let i := cmd (if s.pc % f.n % 2 = 0 then highNibble b else lowNibble b)
    i.wellFormed = true ∧ step s = exec i { s with pc := s.pc + 1 } ∧
      ∀ t, exec i { s with pc := s.pc + 1 } = .next t → tick s = .next ⟨false, t⟩

/-- O9. R72, the contract of `tick`. That a halting tick may move the decode position, and nothing else, is the resolution C5 (log 17). -/
def Obligations.TickPullsOneCommandAndAppliesIt : Prop :=
  ∀ s : State,
    (∀ t, s.pull = .exhausted t → tick s = .next ⟨true, t⟩ ∧ sameDrawing s t ∧ sameImage s t) ∧
    ∀ c u, s.pull = .command c u → ∃ t, exec c u = .next t ∧ tick s = .next ⟨false, t⟩

/-- O10. R74; that the decode position may move is the resolution C5 (log 17). -/
def Obligations.AHaltingTickChangesNothingTheHostSees : Prop :=
  (∀ s t : State, tick s = .next ⟨true, t⟩ →
    sameDrawing s t ∧ sameImage s t ∧ t.cursor = s.cursor ∧ t.pixelBuffer = s.pixelBuffer ∧
      tick t = .next ⟨true, t⟩ ∧
      ∀ fs, s.framing = .frames fs → s.rulePc ≤ fs.length →
        t.rulePc = fs.length ∧ (s.rulePc < fs.length → t.pc = 0)) ∧
  (∀ (romSize : Option Nat) (s t : State), tick s = .next ⟨true, t⟩ →
    ∀ op, ∃ r u, perform romSize op t = .next (r, u)) ∧
  ∀ (s : State) (fs : List RuleFrame), s.framing = .frames fs → fs.length ≤ s.rulePc →
    tick s = .next ⟨true, s⟩

/-- O11. R28: halted is 1 exactly when no rule at index `>= RULE_PC` has a command left. -/
def Obligations.HaltedMeansNoCommandIsLeft : Prop :=
  ∀ (s : State) (fs : List RuleFrame), s.framing = .frames fs →
    ((∃ t, tick s = .next ⟨true, t⟩) ↔
      ∀ r f, s.rulePc ≤ r → fs[r]? = some f → f.n * f.cycles ≤ if r = s.rulePc then s.pc else 0)

/-- O12. R68 (exactly `k*n` commands in round-robin order) and R67 (`p mod n`). -/
def Obligations.ARuleRepeatsItsBodyRoundRobin : Prop :=
  ∀ r : Rule, (ruleCommands r).length = r.body.length * r.cycles ∧
    (∀ p, p < r.body.length * r.cycles → (ruleCommands r)[p]? = r.body[p % r.body.length]?) ∧
    (r.wellFormed = true → (ruleCommands r).length ≤ 65025)

/-- O13. R71 (TOTAL) and R81 (a program cannot loop for ever). -/
def Obligations.EveryProgramIsFinite : Prop :=
  ∀ (bytes : List Byte) (rules : List Rule), decodeBytes bytes = .program rules →
    (commandSeq rules).length = totalCommands rules ∧ totalCommands rules ≤ bytes.length / 3 * 65025

/-- O14. R71: the i-th successful `Next()` returns `Seq[i]` and every later one none; lazy fetch from the raw image (R17) agrees with the eagerly decoded program (R16). -/
def Obligations.PullsFollowTheCommandSequence : Prop :=
  ∀ (romSize : Option Nat) (s : State) (rules : List Rule), s.Inv romSize → s.decoding = .program rules →
    (∀ c, (commandSeq rules)[seqIndex rules s]? = some c →
      ∃ t, s.pull = .command c t ∧ seqIndex rules t = seqIndex rules s + 1 ∧
        sameDrawing s t ∧ sameImage s t) ∧
    ((commandSeq rules)[seqIndex rules s]? = none →
      seqIndex rules s = totalCommands rules ∧
      ∃ t, s.pull = .exhausted t ∧ seqIndex rules t = totalCommands rules ∧
        t.rulePc = rules.length ∧ t.pc = 0 ∧ sameDrawing s t ∧ sameImage s t)

/-- O15. R16 and R17: the correspondence of the two forms, kept by every pull. -/
def Obligations.TheTwoFormsOfTheProgramPullAlike : Prop :=
  ∀ (romSize : Option Nat) (s : State) (rules : List Rule), s.Inv romSize → s.decoding = .program rules →
    match sourceNext (sourceForm rules s.rulePc s.pc) with
    | (some c, p) => ∃ t, s.pull = .command c t ∧ sourceForm rules t.rulePc t.pc = p
    | (none, p) => ∃ t, s.pull = .exhausted t ∧ sourceForm rules t.rulePc t.pc = p

/-- O16. R75 (ticks 1 to TOTAL apply one command each, tick TOTAL + 1 halts) and R130 (the drawing state at the end of a run). It holds from every state under the invariant, so in particular after every load. -/
def Obligations.ARunAppliesTheWholeSequenceAndHalts : Prop :=
  ∀ (romSize : Option Nat) (s : State) (rules : List Rule), s.Inv romSize → s.decoding = .program rules →
    ∃ u t v, execAll (remaining rules s) s = .next u ∧
      session romSize (List.replicate (remaining rules s).length .tick) s =
        .next (List.replicate (remaining rules s).length (.halted false), t) ∧
      Host.Core.run Sys2Proof.core (remaining rules s).length s = .next t ∧
      sameDrawing u t ∧ sameImage s t ∧
      perform romSize .tick t = .next (.halted true, v) ∧
      v.rulePc = rules.length ∧ v.pc = 0 ∧ sameDrawing t v

/-- O17. R25, for `tick`. -/
def Obligations.EveryStepKeepsTheInvariant : Prop :=
  ∀ (romSize : Option Nat) (s t : State), s.Inv romSize → step s = .next t → t.Inv romSize

/-- O18. R25 after `reset`. -/
def Obligations.ResetMeetsTheInvariant : Prop :=
  ∀ romSize : Option Nat, State.reset.Inv romSize

/-- O19. R25: after `reset` and after every operation the invariant holds; a faulting load keeps the old state (R107). -/
def Obligations.EveryHostOperationKeepsTheInvariant : Prop :=
  ∀ (romSize : Option Nat) (s : State), s.Inv romSize →
    (∀ op, ∃ r t, perform romSize op s = .next (r, t) ∧ t.Inv romSize) ∧
    ∀ ops, ∃ rs t, session romSize ops s = .next (rs, t) ∧ rs.length = ops.length ∧ t.Inv romSize

/-- O20. R104 (b): execution-time faults, none are raised during `tick`. -/
def Obligations.ATickNeverFaultsOrRefuses : Prop :=
  ∀ (romSize : Option Nat) (s : State), s.Inv romSize → (∃ r, tick s = .next r) ∧ safeStep s

/-- O21. R15, R14 and R83: the widths of the decode position. -/
def Obligations.ThePositionFitsSixteenBits : Prop :=
  ∀ (romSize : Option Nat) (s : State), s.Inv romSize → s.pc ≤ 65025 ∧ s.rulePc ≤ s.romLen / 3 ∧
    ∀ fs, s.framing = .frames fs → ∀ f ∈ fs,
      1 ≤ f.n ∧ f.n ≤ 255 ∧ f.cycles ≤ 255 ∧ f.base + 2 + ceil2 f.n ≤ s.romLen

/-- O22. The canonical form of the picture, the model's own choice (log 5). -/
def Obligations.EqualReadsMeanEqualPictures : Prop :=
  ∀ pb pb' : PixelBuffer, PixelBuffer.wf pb → PixelBuffer.wf pb' →
    (∀ p, PixelBuffer.read pb p = PixelBuffer.read pb' p) → pb = pb'

/-- O23. R85 with the payloads of R86 to R93. Paint after move is the spec's own decision D14 (log 11). -/
def Obligations.EveryMoveCompletes : Prop :=
  ∀ row ∈ ([(.moveP0, .plus, .zero), (.moveN0, .minus, .zero), (.move0N, .zero, .minus), (.movePN, .plus, .minus),
      (.moveNN, .minus, .minus), (.move0P, .zero, .plus), (.movePP, .plus, .plus), (.moveNP, .minus, .plus)] :
      List (Instr × Delta × Delta)),
    ∀ s : State, ∃ t, exec row.1 s = .next t ∧
      t.cx = s.cx + (if s.mirror then deltaInt row.2.2 else deltaInt row.2.1) * signInt s.flipX ∧
      t.cy = s.cy + (if s.mirror then deltaInt row.2.1 else deltaInt row.2.2) * signInt s.flipY ∧
      (∀ p, paintedCell s row.2.1 row.2.2 = some p →
        PixelBuffer.read t.pb p = s.color ∧
          ∀ q, q ≠ p → PixelBuffer.read t.pb q = PixelBuffer.read s.pb q) ∧
      (paintedCell s row.2.1 row.2.2 = none → t.pb = s.pb) ∧
      sameFlags s t ∧ sameImage s t ∧ samePosition s t

/-- O24. R46 and R34: the store's effective address and the half-open bounds. That the cell is the one at the new position is the spec's own decision D14 (log 11). -/
def Obligations.AMoveStoresAtItsNewPositionOnly : Prop :=
  ∀ (s : State) (dx dy : Delta) (p : Nat × Nat), paintedCell s dx dy = some p ↔
    s.draw = true ∧ p.1 < 272 ∧ p.2 < 192 ∧
    (p.1 : Int) = s.cx + (if s.mirror then deltaInt dy else deltaInt dx) * signInt s.flipX ∧
    (p.2 : Int) = s.cy + (if s.mirror then deltaInt dx else deltaInt dy) * signInt s.flipY

/-- O25. The tables of R86 to R93, transcribed entry by entry. -/
def Obligations.MoveDisplacementTables : Prop :=
  let columns : List (Bool × Sign × Sign) :=
    [(false, .plus, .plus), (false, .plus, .minus), (false, .minus, .plus), (false, .minus, .minus),
     (true, .plus, .plus), (true, .plus, .minus), (true, .minus, .plus), (true, .minus, .minus)]
  let tables : List (Instr × List (Int × Int)) :=
    [(.moveP0, [(1, 0), (1, 0), (-1, 0), (-1, 0), (0, 1), (0, -1), (0, 1), (0, -1)]),
     (.moveN0, [(-1, 0), (-1, 0), (1, 0), (1, 0), (0, -1), (0, 1), (0, -1), (0, 1)]),
     (.move0N, [(0, -1), (0, 1), (0, -1), (0, 1), (-1, 0), (-1, 0), (1, 0), (1, 0)]),
     (.movePN, [(1, -1), (1, 1), (-1, -1), (-1, 1), (-1, 1), (-1, -1), (1, 1), (1, -1)]),
     (.moveNN, [(-1, -1), (-1, 1), (1, -1), (1, 1), (-1, -1), (-1, 1), (1, -1), (1, 1)]),
     (.move0P, [(0, 1), (0, -1), (0, 1), (0, -1), (1, 0), (1, 0), (-1, 0), (-1, 0)]),
     (.movePP, [(1, 1), (1, -1), (-1, 1), (-1, -1), (1, 1), (1, -1), (-1, 1), (-1, -1)]),
     (.moveNP, [(-1, 1), (-1, -1), (1, 1), (1, -1), (1, -1), (1, 1), (-1, -1), (-1, 1)])]
  ∀ table ∈ tables, ∀ entry ∈ columns.zip table.2, ∀ s : State,
    (s.mirror, s.flipX, s.flipY) = entry.1 →
    ∃ t, exec table.1 s = .next t ∧ t.cx = s.cx + entry.2.1 ∧ t.cy = s.cy + entry.2.2

/-- O26. R85: the swap comes before the flips and is all that MIRROR does. -/
def Obligations.MirrorOnlySwapsThePayload : Prop :=
  (∀ (s : State) (dx dy : Delta),
    ({ applyCommand (.move dx dy) { s with mirror := true } with mirror := s.mirror } : State) =
      { applyCommand (.move dy dx) { s with mirror := false } with mirror := s.mirror }) ∧
  (∀ i ∈ [Instr.movePP, Instr.moveNN], ∀ (s : State) (b : Bool), ∃ t u, exec i s = .next t ∧
    exec i { s with mirror := b } = .next u ∧ u.cx = t.cx ∧ u.cy = t.cy ∧ u.pb = t.pb) ∧
  ∀ s : State, ∃ t u, exec .movePN { s with mirror := true } = .next t ∧
    exec .moveNP { s with mirror := false } = .next u ∧ t.cx = u.cx ∧ t.cy = u.cy ∧ t.pb = u.pb

/-- O27. R94 to R96: the pseudocode, and the corner cases 1 to 3. -/
def Obligations.TheFlipsNegateOneAxis : Prop :=
  cmd 0x3#4 = .flipX ∧ cmd 0xB#4 = .flipY ∧ (∀ v, signInt (negSign v) = -signInt v) ∧
  (∀ s : State, exec .flipX s = .next { s with flipX := negSign s.flipX }) ∧
  (∀ s : State, exec .flipY s = .next { s with flipY := negSign s.flipY }) ∧
  (∀ (s : State) (fx fy : Bool), applyCommand (.flip fx fy) s =
    { s with flipX := if fx then negSign s.flipX else s.flipX, flipY := if fy then negSign s.flipY else s.flipY }) ∧
  (∀ s : State, execAll [.flipX, .flipX] s = .next s ∧ execAll [.flipY, .flipY] s = .next s ∧
    execAll [.flipX, .flipY] s = execAll [.flipY, .flipX] s) ∧
  ∀ (s : State) (dx dy : Delta), (displacement (applyCommand (.flip true false) s) dx dy).1 = -(displacement s dx dy).1 ∧
    (displacement (applyCommand (.flip true false) s) dx dy).2 = (displacement s dx dy).2 ∧
    (displacement (applyCommand (.flip false true) s) dx dy).1 = (displacement s dx dy).1 ∧
    (displacement (applyCommand (.flip false true) s) dx dy).2 = -(displacement s dx dy).2

/-- O28. R97: the toggle, the swap that later Moves make while it is on (before the flips), and the corner cases 1 to 3. -/
def Obligations.MirrorTogglesItsFlag : Prop :=
  cmd 0x7#4 = .mirror ∧ (∀ s : State, exec .mirror s = .next { s with mirror := !s.mirror }) ∧
  (∀ s : State, execAll [.mirror, .mirror] s = .next s) ∧
  (∀ (s : State) (dx dy : Delta),
    displacement { s with mirror := true } dx dy = (deltaInt dy * signInt s.flipX, deltaInt dx * signInt s.flipY) ∧
    displacement { s with mirror := false } dx dy = (deltaInt dx * signInt s.flipX, deltaInt dy * signInt s.flipY)) ∧
  ∀ s : State, displacement { s with mirror := !s.mirror } .plus .plus = displacement s .plus .plus ∧
    displacement { s with mirror := !s.mirror } .minus .minus = displacement s .minus .minus

/-- O29. R98. That the cell a Move stores to is the one it arrives on is the spec's own decision D14 (log 11). -/
def Obligations.ColorTogglesItsFlag : Prop :=
  cmd 0xC#4 = .color ∧ (∀ s : State, exec .color s = .next { s with color := !s.color }) ∧
  (∀ s : State, execAll [.color, .color] s = .next s) ∧
  ∀ (s : State) (dx dy : Delta) (p : Nat × Nat), paintedCell s dx dy = some p →
    PixelBuffer.read (applyCommand (.move dx dy) { s with color := !s.color }).pb p = !s.color

/-- O30. R99. -/
def Obligations.DrawTogglesItsFlag : Prop :=
  cmd 0xD#4 = .draw ∧ (∀ s : State, exec .draw s = .next { s with draw := !s.draw }) ∧
  (∀ s : State, execAll [.draw, .draw] s = .next s) ∧
  (∀ (s : State) (dx dy : Delta), (applyCommand (.move dx dy) { s with draw := false }).pb = s.pb ∧
    (applyCommand (.move dx dy) { s with draw := false }).cursor =
      (applyCommand (.move dx dy) { s with draw := true }).cursor) ∧
  exec .draw State.reset = .next { State.reset with draw := false }

/-- O31. R100 to R103: no cursor, flag, picture or ROM change, no fault, one tick each. -/
def Obligations.ReservedCommandsOnlyTakeATick : Prop :=
  cmd 0x0#4 = .pushPop ∧ cmd 0xE#4 = .scaleP ∧ cmd 0xF#4 = .scaleN ∧
  ∀ i ∈ [Instr.pushPop, Instr.scaleP, Instr.scaleN], (∀ s : State, exec i s = .next s) ∧
    (∀ s u : State, s.pull = .command i u →
      tick s = .next ⟨false, u⟩ ∧ sameDrawing s u ∧ sameImage s u ∧ 0 < u.pc) ∧
    (∀ (j : Instr) (s : State), execAll [i, j] s = execAll [j] s) ∧
    ∀ op pad : Nibble, decodeBytes [1#8, 1#8, joinNibbles op pad] = .program [⟨1, [cmd op]⟩] ∧
      decodeBytes [2#8, 1#8, joinNibbles op (encode i)] = .program [⟨1, [cmd op, i]⟩]

/-- O32. R73, the dispatch over the seven kinds; it applies to every constructor of Instr. -/
def Obligations.ExecIsTheClosedCaseAnalysis : Prop :=
  ∀ (i : Instr) (s : State), exec i s = .next (applyCommand i.command s)

/-- O33. R114: the program can change the cursor, the five flags and the pixel buffer, and nothing else. -/
def Obligations.CommandsChangeTheDrawingStateOnly : Prop :=
  ∀ (i : Instr) (s t : State), exec i s = .next t → sameImage s t ∧ samePosition s t

/-- O34. R27, the write columns of the access table. -/
def Obligations.EachFlagHasOneWriter : Prop :=
  ∀ (i : Instr) (s t : State), exec i s = .next t →
    (i ≠ .flipX → t.flipX = s.flipX) ∧ (i ≠ .flipY → t.flipY = s.flipY) ∧ (i ≠ .mirror → t.mirror = s.mirror) ∧
    (i ≠ .draw → t.draw = s.draw) ∧ (i ≠ .color → t.color = s.color) ∧
    ((∀ dx dy, i.command ≠ .move dx dy) → t.cx = s.cx ∧ t.cy = s.cy ∧ t.pb = s.pb)

/-- O35. R85 (each coordinate changes by at most 1), R27 (one cell at most), R43 and R14. That the one cell is the one under the new cursor is the spec's own decision D14 (log 11). -/
def Obligations.AStepMovesOneCellAndPaintsOneCell : Prop :=
  ∀ s t : State, step s = .next t →
    (t.cx - s.cx).natAbs ≤ 1 ∧ (t.cy - s.cy).natAbs ≤ 1 ∧
    (∀ p : Nat × Nat, ((p.1 : Int), (p.2 : Int)) ≠ t.cursor →
      PixelBuffer.read t.pb p = PixelBuffer.read s.pb p) ∧
    sameImage s t ∧ s.rulePc ≤ t.rulePc

/-- O36. R76 with R105 and R106; the truncation fault is the spec's decision D10 (log 9). -/
def Obligations.LoadRomAcceptsExactlyWhatFitsAndFrames : Prop :=
  ∀ (romSize : Option Nat) (bytes : List Byte) (s : State),
    ((∃ t, loadRom romSize bytes s = .next t) ↔
      fits romSize bytes.length ∧ ∃ rules, decodeBytes bytes = .program rules) ∧
    ((∃ t, loadRom romSize bytes s = .next t) ∨ ∃ a, loadRom romSize bytes s = .fault (.invalidAddress a))

/-- O37. R76, R77, R32 and R43: the first tick after the load fetches from the new image at address 0. -/
def Obligations.LoadRomReplacesTheProgramOnly : Prop :=
  ∀ (romSize : Option Nat) (bytes : List Byte) (s t : State), loadRom romSize bytes s = .next t →
    (∀ a, Memory.read t.rom a = bytes[a]?) ∧ t.romLen = bytes.length ∧ t.rulePc = 0 ∧ t.pc = 0 ∧
      sameDrawing s t ∧
      ∃ rules, decodeBytes bytes = .program rules ∧ t.decoding = .program rules ∧
        remaining rules t = commandSeq rules

/-- O38. R105 and R110; the address, the code and the order are the spec's decision D9 (log 8). -/
def Obligations.AnOverLongImageFaults : Prop :=
  ∀ (size : Nat) (bytes : List Byte) (s : State), size < bytes.length →
    loadRom (some size) bytes s = .fault (.invalidAddress size) ∧ (Fault.invalidAddress size).code = 1

/-- O39. R106: some frame starts at `off < L` with a non-zero count and does not end by `L`. The fault is the spec's decision D10 (log 9), the recorded address its decision D9 (log 8). -/
def Obligations.ATruncatedImageFaults : Prop :=
  (∀ (romSize : Option Nat) (bytes : List Byte) (len : Nat) (s : State), fits romSize bytes.length →
    decodeBytes bytes = .truncated len → loadRom romSize bytes s = .fault (.invalidAddress bytes.length)) ∧
  ∀ (romSize : Option Nat) (pad : Nibble) (rules : List Rule) (count : Byte) (rest : List Byte) (s : State),
    programWellFormed rules = true → count ≠ 0#8 → rest.length < 1 + ceil2 count.toNat →
    fits romSize (assemble pad rules ++ count :: rest).length →
    loadRom romSize (assemble pad rules ++ count :: rest) s =
      .fault (.invalidAddress (assemble pad rules ++ count :: rest).length)

/-- O40. R107: no state is written, the fault is never silently ignored and is latched nowhere. -/
def Obligations.AFaultingLoadLeavesTheMachineAsItWas : Prop :=
  (∀ (romSize : Option Nat) (bytes : List Byte) (s : State) (f : Fault), loadRom romSize bytes s = .fault f →
    perform romSize (.loadRom bytes) s = .next (.fault f, s) ∧
    ∀ ops rs t, session romSize ops s = .next (rs, t) →
      session romSize (.loadRom bytes :: ops) s = .next (.fault f :: rs, t)) ∧
  ∀ (romSize : Option Nat) (bytes : List Byte) (s t : State),
    perform romSize (.loadRom bytes) s = .next (.ok, t) → loadRom romSize bytes s = .next t

/-- O41. R119 and R26; the cursor's numbers, the colour's value and the empty program are the spec's decisions D3, D4 and D8 (log 2, 3, 7). -/
def Obligations.ResetGivesTheConstructionValues : Prop :=
  ∀ (romSize : Option Nat) (s : State), ∃ t, perform romSize .reset s = .next (.nothing, t) ∧
    t = State.reset ∧ t.cx = 136 ∧ t.cy = 96 ∧ (∀ p, PixelBuffer.read t.pb p = false) ∧
    t.flipX = .plus ∧ t.flipY = .plus ∧ t.mirror = false ∧ t.draw = true ∧ t.color = true ∧
    (∀ a, Memory.read t.rom a = none) ∧ t.romLen = 0 ∧ t.rulePc = 0 ∧ t.pc = 0

/-- O42. R123; the empty program at reset is the spec's decision D8 (log 7). -/
def Obligations.ATickBeforeAnyLoadHalts : Prop :=
  State.reset.framing = .frames [] ∧ tick State.reset = .next ⟨true, State.reset⟩

/-- O43. R50: a zero-length or absent leading count byte yields an empty program; R74: it halts on the first tick. -/
def Obligations.AnImageWithoutRulesHaltsAtOnce : Prop :=
  ∀ (romSize : Option Nat) (bytes : List Byte) (s : State), fits romSize bytes.length →
    (bytes = [] ∨ bytes.head? = some 0#8) →
    ∃ t, loadRom romSize bytes s = .next t ∧ sameDrawing s t ∧ tick t = .next ⟨true, t⟩

/-- O44. R78. -/
def Obligations.CursorReadsThePairAndChangesNothing : Prop :=
  ∀ (romSize : Option Nat) (s : State), perform romSize .cursor s = .next (.cursor s.cx s.cy, s)

/-- O45. R79; how the grid is nested as data is the model's choice (log 5). -/
def Obligations.PixelBufferReadsTheGridAndChangesNothing : Prop :=
  ∀ (romSize : Option Nat) (s : State), ∃ g, perform romSize .pixelBuffer s = .next (.grid g, s) ∧
    g.length = 272 ∧ (∀ column ∈ g, column.length = 192) ∧
    ∀ x y, x < 272 → y < 192 → (g[x]?.bind fun column => column[y]?) = some (PixelBuffer.read s.pb (x, y))

/-- O46. The host's fixed names; the image that holds the word is the model's choice (log 16). -/
def Obligations.TheFetchWordRunsNext : Prop :=
  ∀ (s : State) (nbits w : Nat), 4 ≤ nbits →
    decodeTableWord nbits w = some (cmdOfNat w) ∧
    step (s.withFetchWord nbits w) = exec (cmdOfNat w) { s.withFetchWord nbits w with pc := 1 } ∧
    ∃ t, step (s.withFetchWord nbits w) = .next t

/-- O47. R104 (the code 1, with 0 for `ok`), R105 to R107 and R110. The codes and the recorded address are the spec's own decision D9 (log 8), the truncation fault is its decision D10 (log 9). -/
def Obligations.TheHostReceivesOneCodeForEachLoad : Prop :=
  ∀ (romSize : Option Nat) (bytes : List Byte) (s : State),
    ∃ r t, perform romSize (.loadRom bytes) s = .next (r, t) ∧
      (r.code = some 0 ↔ fits romSize bytes.length ∧ ∃ rules, decodeBytes bytes = .program rules) ∧
      (r.code = some 0 → r = .ok ∧ t = s.withImage bytes) ∧
      (r.code ≠ some 0 → r.code = some 1 ∧ t = s ∧ ∃ a, r = .fault (.invalidAddress a) ∧
        (fits romSize bytes.length → a = bytes.length) ∧ (¬ fits romSize bytes.length → romSize = some a))
end

