-- ==== Sys2Proof/Laws/Framing.lean ====
section
/-! SUPPORT. Laws/Framing.lean: the framing loop without its bound (30_encoding.md R50, R51), what every
frame satisfies, and the nibbles of a byte. -/

namespace Sys2Proof

@[simp] theorem highNibble_join (hi lo : Nibble) : highNibble (joinNibbles hi lo) = hi := by
  revert hi lo; decide

@[simp] theorem lowNibble_join (hi lo : Nibble) : lowNibble (joinNibbles hi lo) = lo := by
  revert hi lo; decide

@[simp] theorem cmd_encode (i : Instr) : cmd (encode i) = i := by cases i <;> rfl

@[simp] theorem encode_cmd (op : Nibble) : encode (cmd op) = op := by revert op; decide

variable (read : Nat → Option Byte) (len : Nat)

/-- Any fuel above the bytes left gives the same framing. -/
theorem frameLoop_fuel (fuel fuel' off : Nat) (h : len - off < fuel) (h' : len - off < fuel') :
    frameLoop read len fuel off = frameLoop read len fuel' off := by
  induction fuel generalizing fuel' off with
  | zero => omega
  | succ fuel ih =>
    obtain ⟨fuel', rfl⟩ : ∃ k, fuel' = k + 1 := ⟨fuel' - 1, by omega⟩
    rw [frameLoop, frameLoop]
    split
    · cases read off with
      | none => rfl
      | some count =>
        by_cases hc : count.toNat = 0
        · simp [hc]
        · simp only [hc, if_false]
          rw [ih fuel' (off + 2 + ceil2 count.toNat) (by omega) (by omega)]
    · rfl

/-- The loop of `Frame(bytes, L)` as 30_encoding.md R51 writes it, with the four cases of R50. -/
theorem frameFrom_eq (off : Nat) : frameFrom read len off =
    if off < len then
      match read off with
      | none => .truncated len
      | some count =>
        if count.toNat = 0 then .frames []
        else if off + 2 + ceil2 count.toNat ≤ len then
          match read (off + 1) with
          | none => .truncated len
          | some cycles =>
            match frameFrom read len (off + 2 + ceil2 count.toNat) with
            | .truncated l => .truncated l
            | .frames fs => .frames (⟨off, count.toNat, cycles.toNat⟩ :: fs)
        else .truncated len
    else .frames [] := by
  rw [frameFrom, frameLoop]
  split
  · cases read off with
    | none => rfl
    | some count =>
      by_cases hc : count.toNat = 0
      · simp [hc]
      · simp only [hc, if_false]
        have h : frameFrom read len (off + 2 + ceil2 count.toNat) =
            frameLoop read len (len - off) (off + 2 + ceil2 count.toNat) :=
          frameLoop_fuel read len _ _ _ (Nat.lt_succ_self _) (by omega)
        split
        · cases read (off + 1) with
          | none => rfl
          | some cycles =>
            cases hx : frameLoop read len (len - off) (off + 2 + ceil2 count.toNat) <;> simp only [h, hx]
        · rfl
  · rfl

/-- An induction over the frame starts of an image: from the next frame start to this one. -/
theorem frame_start_induction {motive : Nat → Prop}
    (step : ∀ off, (∀ off', off + 2 ≤ off' → off < len → motive off') → motive off) (off : Nat) : motive off := by
  induction h : len - off using Nat.strong_induction_on generalizing off with
  | _ k ih => exact step off fun off' hoff hlt => ih (len - off') (by omega) off' rfl

/-- What `Frame` says of a truncated image is its length (R50 case 4). -/
theorem frameFrom_truncated {off l : Nat} (h : frameFrom read len off = .truncated l) : l = len := by
  induction off using frame_start_induction len with
  | step off ih =>
    rw [frameFrom_eq] at h
    split at h
    · rename_i hlt
      split at h
      · exact (Framing.truncated.inj h).symm
      · rename_i count _
        split at h
        · cases h
        · split at h
          · split at h
            · exact (Framing.truncated.inj h).symm
            · split at h
              · rename_i l' hrec
                cases h
                exact ih _ (by omega) hlt hrec
              · cases h
          · exact (Framing.truncated.inj h).symm
    · cases h

/-- A frame that starts at or after `off` and lies inside an image of `len` bytes, with a count and a
repeat count that are bytes, the count not 0 (R48). -/
def RuleFrame.inside (f : RuleFrame) (len off : Nat) : Prop :=
  off ≤ f.base ∧ 1 ≤ f.n ∧ f.n ≤ 255 ∧ f.cycles ≤ 255 ∧ f.base + 2 + ceil2 f.n ≤ len

/-- Every frame of an image lies inside it (R48, R50 case 3). -/
theorem frameFrom_inside {off : Nat} {fs : List RuleFrame} (h : frameFrom read len off = .frames fs) :
    ∀ f ∈ fs, f.inside len off := by
  induction off using frame_start_induction len generalizing fs with
  | step off ih =>
    rw [frameFrom_eq] at h
    split at h
    · rename_i hlt
      split at h
      · cases h
      · rename_i count _
        split at h
        · cases h; simp
        · rename_i hc
          split at h
          · rename_i hfit
            split at h
            · cases h
            · rename_i cycles _
              split at h
              · cases h
              · rename_i rest hrec
                cases h
                intro f hf
                rcases List.mem_cons.mp hf with rfl | hf
                · have h1 := count.isLt
                  have h2 := cycles.isLt
                  exact ⟨Nat.le_refl _, by simp; omega, by simp; omega, by simp; omega, hfit⟩
                · have := ih _ (by omega) hlt hrec f hf
                  exact ⟨by have := this.1; omega, this.2⟩
          · cases h
    · cases h; simp

/-- A nibble inside a readable frame is read. -/
theorem nib_isSome {read : Nat → Option Byte} {a k : Nat} (h : (read (a + k / 2)).isSome = true) :
    (nib read a k).isSome = true := by
  obtain ⟨b, hb⟩ := Option.isSome_iff_exists.mp h
  simp [nib, hb]

/-- Where every address below the length is readable, every command of a frame is (20_memory.md R36: no
read past the declared `n`). -/
theorem nib_isSome_of_inside {read : Nat → Option Byte} {len off : Nat} {f : RuleFrame} {k : Nat}
    (hread : ∀ a, a < len → (read a).isSome = true) (hf : f.inside len off) (hk : k < f.n) :
    (nib read (f.base + 2) k).isSome = true := by
  refine nib_isSome (hread _ ?_)
  have := hf.2.2.2.2
  unfold ceil2 at this
  omega

end Sys2Proof
end

