-- ==== Sys2Proof/Laws/Assembly.lean ====
section
/-! SUPPORT. Laws/Assembly.lean: framing does not depend on where an image stands (70_reset_and_hazards.md
R131), and the sizes of what the assembler writes (30_encoding.md R60). -/

namespace Sys2Proof

/-- The frame `k` bytes further up. -/
def RuleFrame.shift (k : Nat) (f : RuleFrame) : RuleFrame := { f with base := k + f.base }

variable {read read' : Nat → Option Byte} {k : Nat}

/-- An image that stands `k` bytes further up frames alike, every frame `k` bytes further up. -/
theorem frameFrom_shift (h : ∀ a, read' (k + a) = read a) (len off : Nat) :
    frameFrom read' (k + len) (k + off) =
      match frameFrom read len off with
      | .truncated _ => .truncated (k + len)
      | .frames fs => .frames (fs.map (RuleFrame.shift k)) := by
  induction off using frame_start_induction len with
  | step off ih =>
    rw [frameFrom_eq read', frameFrom_eq read]
    simp only [h, Nat.add_assoc, Nat.add_lt_add_iff_left, Nat.add_le_add_iff_left]
    split
    · rename_i hlt
      cases read off with
      | none => rfl
      | some count =>
        simp only
        split
        · rfl
        · split
          · cases read (off + 1) with
            | none => rfl
            | some cycles =>
              simp only [ih (off + (2 + ceil2 count.toNat)) (by omega) hlt]
              cases frameFrom read len (off + (2 + ceil2 count.toNat)) <;> rfl
          · rfl
    · rfl

/-- A frame and its shifted copy hold the same rule: the base only serves to find the nibbles. -/
theorem frameRule_shift (h : ∀ a, read' (k + a) = read a) (f : RuleFrame) :
    frameRule read' (f.shift k) = frameRule read f := by
  simp only [frameRule, frameBody, RuleFrame.shift, nib, Nat.add_assoc, h]

/-- A body of `n` commands takes `ceil2(n)` payload bytes (30_encoding.md R48). -/
theorem packBody_length (pad : Nibble) : ∀ body, (packBody pad body).length = ceil2 body.length
  | [] => rfl
  | [_] => by simp [packBody, ceil2]
  | _ :: _ :: rest => by
    simp only [packBody, List.length_cons, packBody_length pad rest, ceil2]
    omega

/-- A frame is `2 + ceil2(n)` bytes long (30_encoding.md R48). -/
theorem assembleRule_length (pad : Nibble) (r : Rule) :
    (assembleRule pad r).length = 2 + ceil2 r.body.length := by
  simp only [assembleRule, List.length_cons, packBody_length]
  omega

/-- What a rule's check says. -/
theorem Rule.wellFormed_iff (r : Rule) :
    r.wellFormed = true ↔ 1 ≤ r.body.length ∧ r.body.length ≤ 255 ∧ r.cycles ≤ 255 := by
  have : r.body.all Instr.wellFormed = true := List.all_eq_true.mpr fun i _ => by cases i <;> rfl
  simp [Rule.wellFormed, this, and_assoc]

end Sys2Proof
end

