-- ==== Sys2Proof/Laws/Decoding.lean ====
section
/-! SUPPORT. Laws/Decoding.lean: the decoded program beside the frames it comes from (30_encoding.md R52,
10_state.md R17). -/

namespace Sys2Proof

theorem mapM_option_eq_some_iff {α β : Type} (f : α → Option β) (l : List α) (r : List β) :
    l.mapM f = some r ↔ List.Forall₂ (fun a b => f a = some b) l r := by
  induction l generalizing r with
  | nil => simp [eq_comm]
  | cons a l ih =>
    rw [List.mapM_cons]
    constructor
    · intro h
      simp only [Option.bind_eq_bind, Option.bind_eq_some_iff, Option.pure_def, Option.some.injEq] at h
      obtain ⟨b, hb, bs, hbs, rfl⟩ := h
      exact .cons hb ((ih bs).mp hbs)
    · rintro (_ | ⟨hb, hbs⟩)
      simp [hb, (ih _).mpr hbs]

theorem mapM_option_isSome {α β : Type} (f : α → Option β) (l : List α)
    (h : ∀ a ∈ l, (f a).isSome = true) : ∃ r, l.mapM f = some r := by
  induction l with
  | nil => exact ⟨[], rfl⟩
  | cons a l ih =>
    obtain ⟨b, hb⟩ := Option.isSome_iff_exists.mp (h a List.mem_cons_self)
    obtain ⟨bs, hbs⟩ := ih fun c hc => h c (List.mem_cons_of_mem _ hc)
    exact ⟨b :: bs, by simp [List.mapM_cons, hb, hbs]⟩

variable {read : Nat → Option Byte} {len : Nat}

/-- A frame's rule: the repeat count, `n` commands, and command `k` is the one nibble `k` maps to. -/
theorem frameRule_eq_some {f : RuleFrame} {r : Rule} (h : frameRule read f = some r) :
    r.cycles = f.cycles ∧ r.body.length = f.n ∧
      ∀ k, k < f.n → (nib read (f.base + 2) k).map cmd = r.body[k]? := by
  obtain ⟨body, hbody, rfl⟩ := Option.map_eq_some_iff.mp h
  have hall := (mapM_option_eq_some_iff _ _ _).mp hbody
  refine ⟨rfl, by simpa using hall.length_eq.symm, fun k hk => ?_⟩
  have hlen : k < body.length := by have := hall.length_eq; simp at this; omega
  have := List.forall₂_iff_get.mp hall |>.2 k (by simpa using hk) hlen
  simpa [hlen] using this

/-- Where every valid address is readable, a framed image decodes, rule for frame. -/
theorem decodeImage_of_frames (hread : ∀ a, a < len → (read a).isSome = true) {fs : List RuleFrame}
    (h : frameImage read len = .frames fs) :
    ∃ rules, decodeImage read len = .program rules ∧
      List.Forall₂ (fun f r => frameRule read f = some r) fs rules := by
  have hin := frameFrom_inside read len h
  obtain ⟨rules, hrules⟩ := mapM_option_isSome (frameRule read) fs fun f hf => by
    obtain ⟨body, hbody⟩ := mapM_option_isSome (fun k => (nib read (f.base + 2) k).map cmd)
      (List.range f.n) fun k hk => by
        simpa using nib_isSome_of_inside hread (hin f hf) (List.mem_range.mp hk)
    simp [frameRule, frameBody, hbody]
  exact ⟨rules, by simp [decodeImage, h, hrules], (mapM_option_eq_some_iff _ _ _).mp hrules⟩

/-- A decoded program comes from the frames of its image, rule for frame. -/
theorem decodeImage_program {rules : List Rule} (h : decodeImage read len = .program rules) :
    ∃ fs, frameImage read len = .frames fs ∧
      List.Forall₂ (fun f r => frameRule read f = some r) fs rules := by
  unfold decodeImage at h
  split at h
  · cases h
  · rename_i fs hfs
    split at h
    · cases h
    · rename_i rules' hrules
      cases h
      exact ⟨fs, hfs, (mapM_option_eq_some_iff _ _ _).mp hrules⟩

/-- The one rejection of decoding names the image's length. -/
theorem decodeImage_truncated {l : Nat} (h : decodeImage read len = .truncated l) : l = len := by
  unfold decodeImage at h
  split at h
  · cases h
    exact frameFrom_truncated read len ‹_›
  · split at h
    · exact (Decoding.truncated.inj h).symm
    · cases h

end Sys2Proof
end

