-- ==== Sys2Proof/Laws/Memory.lean ====
section
/-! SUPPORT. Laws/Memory.lean: what the program space and the picture space give back, and that every
operation on them keeps their canonical forms. -/

namespace Sys2Proof.Machine

/-! ### The program space -/

theorem Memory.read_ofBytesFrom (bytes : List Byte) (base a : Nat) :
    Memory.read (Memory.ofBytesFrom base bytes) a = if base ≤ a then bytes[a - base]? else none := by
  induction bytes generalizing base with
  | nil => simp [Memory.ofBytesFrom, Memory.read]
  | cons b bs ih =>
    rw [Memory.ofBytesFrom, Memory.read, ih]
    rcases Nat.lt_trichotomy base a with h | h | h
    · obtain ⟨k, rfl⟩ : ∃ k, a = base + 1 + k := ⟨a - (base + 1), by omega⟩
      have : base + 1 + k - base = k + 1 := by omega
      simp [this, show ¬ base = base + 1 + k by omega, show base ≤ base + 1 + k by omega]
    · subst h; simp
    · simp [show ¬ base = a by omega, show ¬ base + 1 ≤ a by omega, show ¬ base ≤ a by omega]

/-- The image that is loaded reads back byte for byte, and nothing else exists (20_memory.md R32). -/
@[simp] theorem Memory.read_ofBytes (bytes : List Byte) (a : Nat) :
    Memory.read (Memory.ofBytes bytes) a = bytes[a]? := by
  simp [Memory.ofBytes, Memory.read_ofBytesFrom]

theorem Memory.read_ofBytes_eq (bytes : List Byte) :
    Memory.read (Memory.ofBytes bytes) = fun a => bytes[a]? :=
  funext (Memory.read_ofBytes bytes)

theorem Memory.addresses_ofBytesFrom (bytes : List Byte) (base : Nat) :
    (Memory.ofBytesFrom base bytes).map Prod.fst = List.range' base bytes.length := by
  induction bytes generalizing base with
  | nil => rfl
  | cons b bs ih => simp [Memory.ofBytesFrom, ih, List.range'_succ]

/-- A loaded image lists exactly the valid addresses. -/
theorem Memory.dense_ofBytes (bytes : List Byte) :
    Memory.dense (Memory.ofBytes bytes) bytes.length := by
  simp [Memory.dense, Memory.ofBytes, Memory.addresses_ofBytesFrom, List.range_eq_range']

/-- A dense listing is in canonical form. -/
theorem Memory.wf_of_dense {m : Memory} {len : Nat} (h : Memory.dense m len) : Memory.wf m := by
  have : (m.map Prod.fst).Pairwise (· < ·) := by rw [h]; exact List.pairwise_lt_range
  exact List.pairwise_map.mp this

/-- The one write of the program space keeps the canonical form. -/
theorem Memory.wf_ofBytes (bytes : List Byte) : Memory.wf (Memory.ofBytes bytes) :=
  Memory.wf_of_dense (Memory.dense_ofBytes bytes)

theorem Memory.wf_reset : Memory.wf State.reset.rom := List.Pairwise.nil

/-- Below its length a dense listing has a byte at every address. -/
theorem Memory.read_isSome_of_dense {m : Memory} {len a : Nat} (h : Memory.dense m len) (ha : a < len) :
    (Memory.read m a).isSome = true := by
  have mem : a ∈ m.map Prod.fst := by rw [h]; exact List.mem_range.mpr ha
  clear h
  induction m with
  | nil => cases mem
  | cons c rest ih =>
    obtain ⟨b, v⟩ := c
    rw [Memory.read]
    split
    · rfl
    · rename_i hne
      refine ih ?_
      simp only [List.map_cons, List.mem_cons] at mem
      exact mem.resolve_left fun e => hne e.symm

/-! ### The order of the cells -/

theorem cellBefore_irrefl (p : Nat × Nat) : cellBefore p p = false := by simp [cellBefore]

theorem cellBefore_trans {p q r : Nat × Nat} (h : cellBefore p q = true) (k : cellBefore q r = true) :
    cellBefore p r = true := by
  simp only [cellBefore, Bool.or_eq_true, Bool.and_eq_true, decide_eq_true_eq] at *
  omega

theorem cellBefore_total {p q : Nat × Nat} (hne : p ≠ q) (h : cellBefore p q = false) :
    cellBefore q p = true := by
  have : ¬ (p.1 = q.1 ∧ p.2 = q.2) := fun e => hne (Prod.ext e.1 e.2)
  simp only [cellBefore, Bool.or_eq_true, Bool.or_eq_false_iff, Bool.and_eq_false_iff,
    Bool.and_eq_true, decide_eq_true_eq, decide_eq_false_iff_not] at *
  omega

/-! ### The picture space -/

theorem PixelBuffer.read_erase (pb : PixelBuffer) (p q : Nat × Nat) :
    PixelBuffer.read (PixelBuffer.erase pb p) q = if q = p then false else PixelBuffer.read pb q := by
  induction pb with
  | nil => simp [PixelBuffer.erase, PixelBuffer.read]
  | cons c rest ih =>
    obtain ⟨k, v⟩ := c
    by_cases hk : k = p
    · subst hk
      simp only [PixelBuffer.erase, ne_eq, List.filter_cons, not_true_eq_false, decide_false,
        Bool.false_eq_true, if_false, PixelBuffer.read] at ih ⊢
      rw [ih]
      by_cases hq : q = k
      · simp [hq]
      · simp [hq, show ¬ k = q from fun e => hq e.symm]
    · simp only [PixelBuffer.erase, ne_eq, List.filter_cons, hk, not_false_eq_true, decide_true, if_true,
        PixelBuffer.read] at ih ⊢
      rw [ih]
      by_cases hq : k = q
      · subst hq; simp [hk]
      · simp [hq]

theorem PixelBuffer.ne_of_mem_erase {pb : PixelBuffer} {p : Nat × Nat} {c : (Nat × Nat) × Bool}
    (h : c ∈ PixelBuffer.erase pb p) : c.1 ≠ p := by
  simpa using (List.mem_filter.mp h).2

theorem PixelBuffer.mem_of_mem_erase {pb : PixelBuffer} {p : Nat × Nat} {c : (Nat × Nat) × Bool}
    (h : c ∈ PixelBuffer.erase pb p) : c ∈ pb := (List.mem_filter.mp h).1

theorem PixelBuffer.read_insert (pb : PixelBuffer) (p q : Nat × Nat) (h : ∀ c ∈ pb, c.1 ≠ p) :
    PixelBuffer.read (PixelBuffer.insert pb p) q = if q = p then true else PixelBuffer.read pb q := by
  induction pb with
  | nil => simp [PixelBuffer.insert, PixelBuffer.read, eq_comm]
  | cons c rest ih =>
    obtain ⟨k, v⟩ := c
    have hk : k ≠ p := h (k, v) List.mem_cons_self
    have ih' := ih fun c hc => h c (List.mem_cons_of_mem _ hc)
    rw [PixelBuffer.insert]
    split
    · rw [PixelBuffer.read, ih', PixelBuffer.read]
      by_cases hq : k = q
      · subst hq; simp [hk]
      · simp [hq]
    · rw [PixelBuffer.read]
      by_cases hq : p = q
      · simp [hq]
      · simp [hq, show ¬ q = p from fun e => hq e.symm]

/-- What a cell reads as after a write: the written cell the written value, every other cell as before
(20_memory.md R37). It holds of every listing, canonical or not. -/
theorem PixelBuffer.read_write (pb : PixelBuffer) (p q : Nat × Nat) (v : Bool) :
    PixelBuffer.read (PixelBuffer.write pb p v) q = if q = p then v else PixelBuffer.read pb q := by
  cases v
  · simp [PixelBuffer.write, PixelBuffer.read_erase]
  · simp only [PixelBuffer.write, if_true]
    rw [PixelBuffer.read_insert _ _ _ fun c hc => PixelBuffer.ne_of_mem_erase hc, PixelBuffer.read_erase]
    split <;> rfl

theorem PixelBuffer.mem_insert {pb : PixelBuffer} {p : Nat × Nat} {c : (Nat × Nat) × Bool}
    (h : c ∈ PixelBuffer.insert pb p) : c = (p, true) ∨ c ∈ pb := by
  induction pb with
  | nil => exact .inl (by simpa [PixelBuffer.insert] using h)
  | cons d rest ih =>
    obtain ⟨k, v⟩ := d
    rw [PixelBuffer.insert] at h
    split at h
    · rcases List.mem_cons.mp h with h | h
      · exact .inr (by simp [h])
      · exact (ih h).imp_right (List.mem_cons_of_mem _)
    · rcases List.mem_cons.mp h with h | h
      · exact .inl h
      · exact .inr h

/-- Every cell listed after a write is the written one, holding 1, or was listed before. -/
theorem PixelBuffer.mem_write {pb : PixelBuffer} {p : Nat × Nat} {v : Bool} {c : (Nat × Nat) × Bool}
    (h : c ∈ PixelBuffer.write pb p v) : c = (p, true) ∨ c ∈ pb := by
  cases v
  · exact .inr (PixelBuffer.mem_of_mem_erase (by simpa [PixelBuffer.write] using h))
  · exact (PixelBuffer.mem_insert (by simpa [PixelBuffer.write] using h)).imp_right
      PixelBuffer.mem_of_mem_erase

theorem PixelBuffer.wf_erase {pb : PixelBuffer} (p : Nat × Nat) (h : PixelBuffer.wf pb) :
    PixelBuffer.wf (PixelBuffer.erase pb p) :=
  ⟨h.1.filter _, fun c hc => h.2 c (PixelBuffer.mem_of_mem_erase hc)⟩

theorem PixelBuffer.wf_insert {pb : PixelBuffer} {p : Nat × Nat} (h : PixelBuffer.wf pb)
    (hp : ∀ c ∈ pb, c.1 ≠ p) : PixelBuffer.wf (PixelBuffer.insert pb p) := by
  refine ⟨?_, fun c hc => (PixelBuffer.mem_insert hc).elim (fun e => e ▸ rfl) (h.2 c)⟩
  have hs := h.1
  clear h
  induction pb with
  | nil => exact List.pairwise_singleton _ _
  | cons d rest ih =>
    obtain ⟨k, v⟩ := d
    obtain ⟨hk, hrest⟩ := List.pairwise_cons.mp hs
    have hne : k ≠ p := hp (k, v) List.mem_cons_self
    rw [PixelBuffer.insert]
    split
    · rename_i hb
      refine List.pairwise_cons.mpr ⟨fun c hc => ?_, ih (fun c hc => hp c (List.mem_cons_of_mem _ hc)) hrest⟩
      rcases PixelBuffer.mem_insert hc with rfl | hc
      · exact hb
      · exact hk c hc
    · rename_i hb
      have hpk : cellBefore p k = true := cellBefore_total hne (by simpa using hb)
      refine List.pairwise_cons.mpr ⟨fun c hc => ?_, hs⟩
      rcases List.mem_cons.mp hc with rfl | hc
      · exact hpk
      · exact cellBefore_trans hpk (hk c hc)

/-- A write keeps the canonical form. -/
theorem PixelBuffer.wf_write {pb : PixelBuffer} (p : Nat × Nat) (v : Bool) (h : PixelBuffer.wf pb) :
    PixelBuffer.wf (PixelBuffer.write pb p v) := by
  cases v
  · simpa [PixelBuffer.write] using PixelBuffer.wf_erase p h
  · simpa only [PixelBuffer.write, if_true] using
      PixelBuffer.wf_insert (PixelBuffer.wf_erase p h) fun c hc => PixelBuffer.ne_of_mem_erase hc

/-- A write inside the grid lists no cell outside it. -/
theorem PixelBuffer.inGrid_write {pb : PixelBuffer} {p : Nat × Nat} (v : Bool)
    (h : PixelBuffer.inGrid pb) (hp : p.1 < Config.width ∧ p.2 < Config.height) :
    PixelBuffer.inGrid (PixelBuffer.write pb p v) := fun c hc =>
  (PixelBuffer.mem_write hc).elim (fun e => e ▸ hp) (h c)

theorem PixelBuffer.wf_reset : PixelBuffer.wf State.reset.pb := by decide

theorem PixelBuffer.inGrid_reset : PixelBuffer.inGrid State.reset.pb := by decide

/-- In canonical form a cell is listed exactly when it reads as 1. -/
theorem PixelBuffer.read_eq_true_iff {pb : PixelBuffer} (h : PixelBuffer.wf pb) (p : Nat × Nat) :
    PixelBuffer.read pb p = true ↔ (p, true) ∈ pb := by
  obtain ⟨hs, ht⟩ := h
  induction pb with
  | nil => simp [PixelBuffer.read]
  | cons d rest ih =>
    obtain ⟨k, v⟩ := d
    obtain rfl : v = true := ht (k, v) List.mem_cons_self
    rw [PixelBuffer.read]
    by_cases hk : k = p
    · simp [hk]
    · simp only [hk, if_false, List.mem_cons, Prod.mk.injEq, and_true]
      rw [ih (List.pairwise_cons.mp hs).2 fun c hc => ht c (List.mem_cons_of_mem _ hc)]
      simp [show ¬ p = k from fun e => hk e.symm]

end Sys2Proof.Machine
end

