-- ==== Sys2Proof/Laws/State.lean ====
section
/-! SUPPORT. Laws/State.lean: one lemma for each field after each update of the state, so that no later
proof unfolds a record update. -/

namespace Sys2Proof.Machine

variable (s : State)

/-! ### withPosition -/

@[simp] theorem State.withPosition_rom (r p : Nat) : (s.withPosition r p).rom = s.rom := rfl
@[simp] theorem State.withPosition_romLen (r p : Nat) : (s.withPosition r p).romLen = s.romLen := rfl
@[simp] theorem State.withPosition_rulePc (r p : Nat) : (s.withPosition r p).rulePc = r := rfl
@[simp] theorem State.withPosition_pc (r p : Nat) : (s.withPosition r p).pc = p := rfl
@[simp] theorem State.withPosition_cx (r p : Nat) : (s.withPosition r p).cx = s.cx := rfl
@[simp] theorem State.withPosition_cy (r p : Nat) : (s.withPosition r p).cy = s.cy := rfl
@[simp] theorem State.withPosition_flipX (r p : Nat) : (s.withPosition r p).flipX = s.flipX := rfl
@[simp] theorem State.withPosition_flipY (r p : Nat) : (s.withPosition r p).flipY = s.flipY := rfl
@[simp] theorem State.withPosition_mirror (r p : Nat) : (s.withPosition r p).mirror = s.mirror := rfl
@[simp] theorem State.withPosition_draw (r p : Nat) : (s.withPosition r p).draw = s.draw := rfl
@[simp] theorem State.withPosition_color (r p : Nat) : (s.withPosition r p).color = s.color := rfl
@[simp] theorem State.withPosition_pb (r p : Nat) : (s.withPosition r p).pb = s.pb := rfl

/-! ### withCursor -/

@[simp] theorem State.withCursor_rom (x y : Int) : (s.withCursor x y).rom = s.rom := rfl
@[simp] theorem State.withCursor_romLen (x y : Int) : (s.withCursor x y).romLen = s.romLen := rfl
@[simp] theorem State.withCursor_rulePc (x y : Int) : (s.withCursor x y).rulePc = s.rulePc := rfl
@[simp] theorem State.withCursor_pc (x y : Int) : (s.withCursor x y).pc = s.pc := rfl
@[simp] theorem State.withCursor_cx (x y : Int) : (s.withCursor x y).cx = x := rfl
@[simp] theorem State.withCursor_cy (x y : Int) : (s.withCursor x y).cy = y := rfl
@[simp] theorem State.withCursor_flipX (x y : Int) : (s.withCursor x y).flipX = s.flipX := rfl
@[simp] theorem State.withCursor_flipY (x y : Int) : (s.withCursor x y).flipY = s.flipY := rfl
@[simp] theorem State.withCursor_mirror (x y : Int) : (s.withCursor x y).mirror = s.mirror := rfl
@[simp] theorem State.withCursor_draw (x y : Int) : (s.withCursor x y).draw = s.draw := rfl
@[simp] theorem State.withCursor_color (x y : Int) : (s.withCursor x y).color = s.color := rfl
@[simp] theorem State.withCursor_pb (x y : Int) : (s.withCursor x y).pb = s.pb := rfl

/-! ### withCell -/

@[simp] theorem State.withCell_rom (q : Nat × Nat) (v : Bool) : (s.withCell q v).rom = s.rom := rfl
@[simp] theorem State.withCell_romLen (q : Nat × Nat) (v : Bool) : (s.withCell q v).romLen = s.romLen := rfl
@[simp] theorem State.withCell_rulePc (q : Nat × Nat) (v : Bool) : (s.withCell q v).rulePc = s.rulePc := rfl
@[simp] theorem State.withCell_pc (q : Nat × Nat) (v : Bool) : (s.withCell q v).pc = s.pc := rfl
@[simp] theorem State.withCell_cx (q : Nat × Nat) (v : Bool) : (s.withCell q v).cx = s.cx := rfl
@[simp] theorem State.withCell_cy (q : Nat × Nat) (v : Bool) : (s.withCell q v).cy = s.cy := rfl
@[simp] theorem State.withCell_flipX (q : Nat × Nat) (v : Bool) : (s.withCell q v).flipX = s.flipX := rfl
@[simp] theorem State.withCell_flipY (q : Nat × Nat) (v : Bool) : (s.withCell q v).flipY = s.flipY := rfl
@[simp] theorem State.withCell_mirror (q : Nat × Nat) (v : Bool) : (s.withCell q v).mirror = s.mirror := rfl
@[simp] theorem State.withCell_draw (q : Nat × Nat) (v : Bool) : (s.withCell q v).draw = s.draw := rfl
@[simp] theorem State.withCell_color (q : Nat × Nat) (v : Bool) : (s.withCell q v).color = s.color := rfl
@[simp] theorem State.withCell_pb (q : Nat × Nat) (v : Bool) : (s.withCell q v).pb = PixelBuffer.write s.pb q v := rfl

/-! ### withImage -/

@[simp] theorem State.withImage_rom (bytes : List Byte) : (s.withImage bytes).rom = Memory.ofBytes bytes := rfl
@[simp] theorem State.withImage_romLen (bytes : List Byte) : (s.withImage bytes).romLen = bytes.length := rfl
@[simp] theorem State.withImage_rulePc (bytes : List Byte) : (s.withImage bytes).rulePc = 0 := rfl
@[simp] theorem State.withImage_pc (bytes : List Byte) : (s.withImage bytes).pc = 0 := rfl
@[simp] theorem State.withImage_cx (bytes : List Byte) : (s.withImage bytes).cx = s.cx := rfl
@[simp] theorem State.withImage_cy (bytes : List Byte) : (s.withImage bytes).cy = s.cy := rfl
@[simp] theorem State.withImage_flipX (bytes : List Byte) : (s.withImage bytes).flipX = s.flipX := rfl
@[simp] theorem State.withImage_flipY (bytes : List Byte) : (s.withImage bytes).flipY = s.flipY := rfl
@[simp] theorem State.withImage_mirror (bytes : List Byte) : (s.withImage bytes).mirror = s.mirror := rfl
@[simp] theorem State.withImage_draw (bytes : List Byte) : (s.withImage bytes).draw = s.draw := rfl
@[simp] theorem State.withImage_color (bytes : List Byte) : (s.withImage bytes).color = s.color := rfl
@[simp] theorem State.withImage_pb (bytes : List Byte) : (s.withImage bytes).pb = s.pb := rfl

/-! ### flipXWhen -/

@[simp] theorem State.flipXWhen_rom (b : Bool) : (s.flipXWhen b).rom = s.rom := rfl
@[simp] theorem State.flipXWhen_romLen (b : Bool) : (s.flipXWhen b).romLen = s.romLen := rfl
@[simp] theorem State.flipXWhen_rulePc (b : Bool) : (s.flipXWhen b).rulePc = s.rulePc := rfl
@[simp] theorem State.flipXWhen_pc (b : Bool) : (s.flipXWhen b).pc = s.pc := rfl
@[simp] theorem State.flipXWhen_cx (b : Bool) : (s.flipXWhen b).cx = s.cx := rfl
@[simp] theorem State.flipXWhen_cy (b : Bool) : (s.flipXWhen b).cy = s.cy := rfl
@[simp] theorem State.flipXWhen_flipX (b : Bool) : (s.flipXWhen b).flipX = if b then negSign s.flipX else s.flipX := rfl
@[simp] theorem State.flipXWhen_flipY (b : Bool) : (s.flipXWhen b).flipY = s.flipY := rfl
@[simp] theorem State.flipXWhen_mirror (b : Bool) : (s.flipXWhen b).mirror = s.mirror := rfl
@[simp] theorem State.flipXWhen_draw (b : Bool) : (s.flipXWhen b).draw = s.draw := rfl
@[simp] theorem State.flipXWhen_color (b : Bool) : (s.flipXWhen b).color = s.color := rfl
@[simp] theorem State.flipXWhen_pb (b : Bool) : (s.flipXWhen b).pb = s.pb := rfl

/-! ### flipYWhen -/

@[simp] theorem State.flipYWhen_rom (b : Bool) : (s.flipYWhen b).rom = s.rom := rfl
@[simp] theorem State.flipYWhen_romLen (b : Bool) : (s.flipYWhen b).romLen = s.romLen := rfl
@[simp] theorem State.flipYWhen_rulePc (b : Bool) : (s.flipYWhen b).rulePc = s.rulePc := rfl
@[simp] theorem State.flipYWhen_pc (b : Bool) : (s.flipYWhen b).pc = s.pc := rfl
@[simp] theorem State.flipYWhen_cx (b : Bool) : (s.flipYWhen b).cx = s.cx := rfl
@[simp] theorem State.flipYWhen_cy (b : Bool) : (s.flipYWhen b).cy = s.cy := rfl
@[simp] theorem State.flipYWhen_flipX (b : Bool) : (s.flipYWhen b).flipX = s.flipX := rfl
@[simp] theorem State.flipYWhen_flipY (b : Bool) : (s.flipYWhen b).flipY = if b then negSign s.flipY else s.flipY := rfl
@[simp] theorem State.flipYWhen_mirror (b : Bool) : (s.flipYWhen b).mirror = s.mirror := rfl
@[simp] theorem State.flipYWhen_draw (b : Bool) : (s.flipYWhen b).draw = s.draw := rfl
@[simp] theorem State.flipYWhen_color (b : Bool) : (s.flipYWhen b).color = s.color := rfl
@[simp] theorem State.flipYWhen_pb (b : Bool) : (s.flipYWhen b).pb = s.pb := rfl

/-! ### toggleMirror -/

@[simp] theorem State.toggleMirror_rom : (s.toggleMirror).rom = s.rom := rfl
@[simp] theorem State.toggleMirror_romLen : (s.toggleMirror).romLen = s.romLen := rfl
@[simp] theorem State.toggleMirror_rulePc : (s.toggleMirror).rulePc = s.rulePc := rfl
@[simp] theorem State.toggleMirror_pc : (s.toggleMirror).pc = s.pc := rfl
@[simp] theorem State.toggleMirror_cx : (s.toggleMirror).cx = s.cx := rfl
@[simp] theorem State.toggleMirror_cy : (s.toggleMirror).cy = s.cy := rfl
@[simp] theorem State.toggleMirror_flipX : (s.toggleMirror).flipX = s.flipX := rfl
@[simp] theorem State.toggleMirror_flipY : (s.toggleMirror).flipY = s.flipY := rfl
@[simp] theorem State.toggleMirror_mirror : (s.toggleMirror).mirror = !s.mirror := rfl
@[simp] theorem State.toggleMirror_draw : (s.toggleMirror).draw = s.draw := rfl
@[simp] theorem State.toggleMirror_color : (s.toggleMirror).color = s.color := rfl
@[simp] theorem State.toggleMirror_pb : (s.toggleMirror).pb = s.pb := rfl

/-! ### toggleColor -/

@[simp] theorem State.toggleColor_rom : (s.toggleColor).rom = s.rom := rfl
@[simp] theorem State.toggleColor_romLen : (s.toggleColor).romLen = s.romLen := rfl
@[simp] theorem State.toggleColor_rulePc : (s.toggleColor).rulePc = s.rulePc := rfl
@[simp] theorem State.toggleColor_pc : (s.toggleColor).pc = s.pc := rfl
@[simp] theorem State.toggleColor_cx : (s.toggleColor).cx = s.cx := rfl
@[simp] theorem State.toggleColor_cy : (s.toggleColor).cy = s.cy := rfl
@[simp] theorem State.toggleColor_flipX : (s.toggleColor).flipX = s.flipX := rfl
@[simp] theorem State.toggleColor_flipY : (s.toggleColor).flipY = s.flipY := rfl
@[simp] theorem State.toggleColor_mirror : (s.toggleColor).mirror = s.mirror := rfl
@[simp] theorem State.toggleColor_draw : (s.toggleColor).draw = s.draw := rfl
@[simp] theorem State.toggleColor_color : (s.toggleColor).color = !s.color := rfl
@[simp] theorem State.toggleColor_pb : (s.toggleColor).pb = s.pb := rfl

/-! ### toggleDraw -/

@[simp] theorem State.toggleDraw_rom : (s.toggleDraw).rom = s.rom := rfl
@[simp] theorem State.toggleDraw_romLen : (s.toggleDraw).romLen = s.romLen := rfl
@[simp] theorem State.toggleDraw_rulePc : (s.toggleDraw).rulePc = s.rulePc := rfl
@[simp] theorem State.toggleDraw_pc : (s.toggleDraw).pc = s.pc := rfl
@[simp] theorem State.toggleDraw_cx : (s.toggleDraw).cx = s.cx := rfl
@[simp] theorem State.toggleDraw_cy : (s.toggleDraw).cy = s.cy := rfl
@[simp] theorem State.toggleDraw_flipX : (s.toggleDraw).flipX = s.flipX := rfl
@[simp] theorem State.toggleDraw_flipY : (s.toggleDraw).flipY = s.flipY := rfl
@[simp] theorem State.toggleDraw_mirror : (s.toggleDraw).mirror = s.mirror := rfl
@[simp] theorem State.toggleDraw_draw : (s.toggleDraw).draw = !s.draw := rfl
@[simp] theorem State.toggleDraw_color : (s.toggleDraw).color = s.color := rfl
@[simp] theorem State.toggleDraw_pb : (s.toggleDraw).pb = s.pb := rfl

/-- Moving the decode position to where it stands changes nothing. -/
@[simp] theorem State.withPosition_self : s.withPosition s.rulePc s.pc = s := rfl

@[simp] theorem State.withPosition_withPosition (r p r' p' : Nat) :
    (s.withPosition r p).withPosition r' p' = s.withPosition r' p' := rfl

end Sys2Proof.Machine
end

