-- ==== Sys2Proof/Laws/Sequencer.lean ====
section
/-! SUPPORT. Laws/Sequencer.lean: once for each function of the sequencer, everything it can do
(40_sequencer.md R67 to R72). -/

namespace Sys2Proof.Machine

/-- The frame that `seek` stops at is the first, from the current position on, that has a command left;
every frame before it is exhausted. -/
theorem seek_some {l : List RuleFrame} {r p r' p' : Nat} {f : RuleFrame}
    (h : seek l r p = (some f, r', p')) :
    p' < ruleLength f ∧ (r' = r ∧ p' = p ∧ l.head? = some f ∨
      ∃ g rest, l = g :: rest ∧ ruleLength g ≤ p ∧ r < r' ∧ p' = 0 ∧ seek rest (r + 1) 0 = (some f, r', 0)) := by
  cases l with
  | nil => simp [seek] at h
  | cons g rest =>
    rw [seek] at h
    split at h
    · rename_i hlt
      simp only [Prod.mk.injEq, Option.some.injEq] at h
      obtain ⟨rfl, rfl, rfl⟩ := h
      exact ⟨hlt, .inl ⟨rfl, rfl, rfl⟩⟩
    · rename_i hge
      have key : ∀ (l : List RuleFrame) (r : Nat), seek l r 0 = (some f, r', p') →
          p' = 0 ∧ r ≤ r' ∧ 0 < ruleLength f := by
        intro l
        induction l with
        | nil => intro r h; simp [seek] at h
        | cons g rest ih =>
          intro r h
          rw [seek] at h
          split at h
          · rename_i hpos
            simp only [Prod.mk.injEq, Option.some.injEq] at h
            obtain ⟨rfl, rfl, rfl⟩ := h
            exact ⟨rfl, Nat.le_refl _, hpos⟩
          · obtain ⟨h1, h2, h3⟩ := ih (r + 1) h
            exact ⟨h1, by omega, h3⟩
      obtain ⟨rfl, hr, hpos⟩ := key rest (r + 1) h
      exact ⟨hpos, .inr ⟨g, rest, rfl, by omega, by omega, rfl, h⟩⟩

/-- The frame found stands in the list at the index reached. -/
theorem seek_some_getElem {l : List RuleFrame} {r p r' p' : Nat} {f : RuleFrame}
    (h : seek l r p = (some f, r', p')) : r ≤ r' ∧ l[r' - r]? = some f := by
  induction l generalizing r p with
  | nil => simp [seek] at h
  | cons g rest ih =>
    rw [seek] at h
    split at h
    · simp only [Prod.mk.injEq, Option.some.injEq] at h
      obtain ⟨rfl, rfl, rfl⟩ := h
      simp
    · obtain ⟨h1, h2⟩ := ih h
      have : r' - r = (r' - (r + 1)) + 1 := by omega
      exact ⟨by omega, by simpa [this] using h2⟩

/-- Where `seek` finds nothing it has passed every rule, and `PC` is 0 if it passed any. -/
theorem seek_none {l : List RuleFrame} {r p r' p' : Nat} (h : seek l r p = (none, r', p')) :
    r' = r + l.length ∧ p' = (if l = [] then p else 0) ∧
      (∀ g, l.head? = some g → ruleLength g ≤ p) ∧ ∀ g ∈ l.tail, ruleLength g = 0 := by
  induction l generalizing r p with
  | nil => simp only [seek, Prod.mk.injEq, true_and] at h; simp [h.1, h.2]
  | cons g rest ih =>
    rw [seek] at h
    split at h
    · cases h
    · rename_i hge
      obtain ⟨h1, h2, h3, h4⟩ := ih h
      refine ⟨by simp; omega, by simpa using h2, by simp; omega, fun k hk => ?_⟩
      cases rest with
      | nil => cases hk
      | cons k' rest' =>
        rcases List.mem_cons.mp hk with rfl | hk
        · exact Nat.le_zero.mp (h3 k rfl)
        · exact h4 k hk

/-- Everything one pull can do in a state whose image frames: it names the first command left and moves
the decode position past it, or it moves to the end, or a byte of the ROM is missing. -/
theorem pull_cases {s : State} {fs : List RuleFrame} (h : s.framing = .frames fs) :
    (∃ r p, seek (fs.drop s.rulePc) s.rulePc s.pc = (none, r, p) ∧ s.pull = .exhausted (s.withPosition r p)) ∨
    ∃ f r p, seek (fs.drop s.rulePc) s.rulePc s.pc = (some f, r, p) ∧
      ((ruleCmd (Memory.read s.rom) f p = none ∧ s.pull = .unreadable) ∨
        ∃ c, ruleCmd (Memory.read s.rom) f p = some c ∧ s.pull = .command c (s.withPosition r (p + 1))) := by
  unfold State.pull
  rw [h]
  simp only
  rcases hs : seek (fs.drop s.rulePc) s.rulePc s.pc with ⟨_ | f, r, p⟩
  · exact .inl ⟨r, p, rfl, rfl⟩
  · refine .inr ⟨f, r, p, rfl, ?_⟩
    cases hc : ruleCmd (Memory.read s.rom) f p with
    | none => exact .inl ⟨rfl, by simp [hc]⟩
    | some c => exact .inr ⟨c, rfl, by simp [hc]⟩

/-- A pull that names a command came from a framed image. -/
theorem pull_command {s t : State} {c : Instr} (h : s.pull = .command c t) :
    ∃ fs f r p, s.framing = .frames fs ∧ seek (fs.drop s.rulePc) s.rulePc s.pc = (some f, r, p) ∧
      ruleCmd (Memory.read s.rom) f p = some c ∧ t = s.withPosition r (p + 1) := by
  cases hf : s.framing with
  | truncated l => simp [State.pull, hf] at h
  | frames fs =>
    rcases pull_cases hf with ⟨r, p, _, hp⟩ | ⟨f, r, p, hs, ⟨_, hp⟩ | ⟨c', hc, hp⟩⟩
    · rw [hp] at h; cases h
    · rw [hp] at h; cases h
    · rw [hp] at h
      cases h
      exact ⟨fs, f, r, p, rfl, hs, hc, rfl⟩

/-- A pull that finds the program exhausted came from a framed image. -/
theorem pull_exhausted {s t : State} (h : s.pull = .exhausted t) :
    ∃ fs r p, s.framing = .frames fs ∧ seek (fs.drop s.rulePc) s.rulePc s.pc = (none, r, p) ∧
      t = s.withPosition r p := by
  cases hf : s.framing with
  | truncated l => simp [State.pull, hf] at h
  | frames fs =>
    rcases pull_cases hf with ⟨r, p, hs, hp⟩ | ⟨f, r, p, hs, ⟨_, hp⟩ | ⟨c', hc, hp⟩⟩
    · rw [hp] at h
      cases h
      exact ⟨fs, r, p, rfl, hs, rfl⟩
    · rw [hp] at h; cases h
    · rw [hp] at h; cases h

/-- Framing reads the image alone. -/
@[simp] theorem framing_withPosition (s : State) (r p : Nat) :
    (s.withPosition r p).framing = s.framing := rfl

@[simp] theorem decoding_withPosition (s : State) (r p : Nat) :
    (s.withPosition r p).decoding = s.decoding := rfl

/-- The framing of a loaded image is the framing of its bytes. -/
theorem framing_withImage (s : State) (bytes : List Byte) :
    (s.withImage bytes).framing = frameImage (fun a => bytes[a]?) bytes.length := by
  simp [State.framing, State.withImage, Memory.read_ofBytes_eq]

theorem decoding_withImage (s : State) (bytes : List Byte) :
    (s.withImage bytes).decoding = decodeBytes bytes := by
  simp [State.decoding, State.withImage, Memory.read_ofBytes_eq, decodeBytes]

/-- Everything a tick can do. -/
theorem tick_cases (s : State) :
    (s.pull = .unreadable ∧ tick s = .refused .unframedImage) ∨
    (∃ t, s.pull = .exhausted t ∧ tick s = .next ⟨true, t⟩) ∨
    ∃ c t, s.pull = .command c t ∧ tick s = ticked (exec c t) := by
  unfold tick
  cases s.pull with
  | unreadable => exact .inl ⟨rfl, rfl⟩
  | exhausted t => exact .inr (.inl ⟨t, rfl, rfl⟩)
  | command c t => exact .inr (.inr ⟨c, t, rfl, rfl⟩)

end Sys2Proof.Machine
end

