-- ==== Sys2Proof/Laws/HostOps.lean ====
section
/-! SUPPORT. Laws/HostOps.lean: everything `load_rom` can do (40_sequencer.md R76), and a step beside a
tick. -/

namespace Sys2Proof.Machine

theorem overLong_eq_none_iff (romSize : Option Nat) (len : Nat) :
    overLong romSize len = none ↔ ∀ size, romSize = some size → len ≤ size := by
  cases romSize with
  | none => simp [overLong]
  | some size => simp [overLong]

theorem overLong_eq_some_iff (romSize : Option Nat) (len size : Nat) :
    overLong romSize len = some size ↔ romSize = some size ∧ size < len := by
  cases romSize with
  | none => simp [overLong]
  | some k => simp only [overLong, Option.ite_none_right_eq_some, Option.some.injEq]; omega

/-- Everything `load_rom` can do: fault on the size, fault on the framing, or write the image. -/
theorem loadRom_cases (romSize : Option Nat) (bytes : List Byte) (s : State) :
    (∃ size, overLong romSize bytes.length = some size ∧
      loadRom romSize bytes s = .fault (.invalidAddress size)) ∨
    (overLong romSize bytes.length = none ∧ frameImage (fun a => bytes[a]?) bytes.length = .truncated bytes.length ∧
      loadRom romSize bytes s = .fault (.invalidAddress bytes.length)) ∨
    ∃ fs, overLong romSize bytes.length = none ∧ frameImage (fun a => bytes[a]?) bytes.length = .frames fs ∧
      loadRom romSize bytes s = .next (s.withImage bytes) := by
  unfold loadRom
  cases ho : overLong romSize bytes.length with
  | some size => exact .inl ⟨size, rfl, rfl⟩
  | none =>
    refine .inr ?_
    cases hf : frameImage (fun a => bytes[a]?) bytes.length with
    | truncated l =>
      obtain rfl : l = bytes.length := frameFrom_truncated _ _ hf
      exact .inl ⟨rfl, rfl, rfl⟩
    | frames fs => exact .inr ⟨fs, rfl, rfl, rfl⟩

@[simp] theorem Fault.code_invalidAddress (a : Nat) : (Fault.invalidAddress a).code = 1 := rfl
@[simp] theorem OpResult.code_ok : OpResult.ok.code = some 0 := rfl
@[simp] theorem OpResult.code_fault (f : Fault) : (OpResult.fault f).code = some f.code := rfl

/-- What the host receives of a load that writes the image. -/
@[simp] theorem loadResult_next (s t : State) : loadResult s (.next t) = .next (.ok, t) := rfl
/-- What the host receives of a load that faults. -/
@[simp] theorem loadResult_fault (s : State) (f : Fault) : loadResult s (.fault f) = .next (.fault f, s) := rfl

/-- A step answers a next state exactly when its tick does, with the tick's state. -/
theorem step_eq_next_iff (s t : State) : step s = .next t ↔ ∃ h, tick s = .next ⟨h, t⟩ := by
  unfold step
  cases tick s with
  | next r => cases r; simp [tickedState]
  | fault f => simp [tickedState]
  | refused r => simp [tickedState]

/-- A session of two parts. -/
theorem session_append (romSize : Option Nat) (ops ops' : List HostOp) (s : State) :
    session romSize (ops ++ ops') s =
      match session romSize ops s with
      | .fault f => .fault f
      | .refused r => .refused r
      | .next (rs, t) =>
        match session romSize ops' t with
        | .fault f => .fault f
        | .refused r => .refused r
        | .next (rs', u) => .next (rs ++ rs', u) := by
  induction ops generalizing s with
  | nil => simp only [List.nil_append, session]; split <;> simp_all
  | cons op ops ih =>
    simp only [List.cons_append, session]
    cases perform romSize op s with
    | fault f => rfl
    | refused r => rfl
    | next x =>
      obtain ⟨r, t⟩ := x
      simp only [ih]
      cases session romSize ops t with
      | fault f => rfl
      | refused r => rfl
      | next y =>
        obtain ⟨rs, u⟩ := y
        simp only
        cases session romSize ops' u with
        | fault f => rfl
        | refused r => rfl
        | next z => rfl

end Sys2Proof.Machine
end

