-- ==== Sys2Proof/Laws/Move.lean ====
section
/-! SUPPORT. Laws/Move.lean: everything the shared operation `moveBy` does, field by field (41_move.md
R85). -/

namespace Sys2Proof.Machine

variable (s : State)

/-- Paint changes no field but the picture. -/
theorem paint_eq (cell : Option (Nat × Nat)) : paint s cell = s ∨ ∃ p, cell = some p ∧ paint s cell = s.withCell p s.color := by
  cases cell with
  | none => exact .inl rfl
  | some p => exact .inr ⟨p, rfl, rfl⟩

/-- What a cell reads as after a paint. -/
theorem read_paint (cell : Option (Nat × Nat)) (q : Nat × Nat) :
    PixelBuffer.read (paint s cell).pb q = if cell = some q then s.color else PixelBuffer.read s.pb q := by
  cases cell with
  | none => simp [paint]
  | some p => simp [paint, PixelBuffer.read_write, eq_comm]

variable (dx dy : Delta)

@[simp] theorem moveBy_rom : (moveBy s dx dy).rom = s.rom := by
  unfold moveBy paint; split <;> rfl
@[simp] theorem moveBy_romLen : (moveBy s dx dy).romLen = s.romLen := by
  unfold moveBy paint; split <;> rfl
@[simp] theorem moveBy_rulePc : (moveBy s dx dy).rulePc = s.rulePc := by
  unfold moveBy paint; split <;> rfl
@[simp] theorem moveBy_pc : (moveBy s dx dy).pc = s.pc := by
  unfold moveBy paint; split <;> rfl
@[simp] theorem moveBy_cx : (moveBy s dx dy).cx = (moveTarget s dx dy).1 := by
  unfold moveBy paint; split <;> rfl
@[simp] theorem moveBy_cy : (moveBy s dx dy).cy = (moveTarget s dx dy).2 := by
  unfold moveBy paint; split <;> rfl
@[simp] theorem moveBy_flipX : (moveBy s dx dy).flipX = s.flipX := by
  unfold moveBy paint; split <;> rfl
@[simp] theorem moveBy_flipY : (moveBy s dx dy).flipY = s.flipY := by
  unfold moveBy paint; split <;> rfl
@[simp] theorem moveBy_mirror : (moveBy s dx dy).mirror = s.mirror := by
  unfold moveBy paint; split <;> rfl
@[simp] theorem moveBy_draw : (moveBy s dx dy).draw = s.draw := by
  unfold moveBy paint; split <;> rfl
@[simp] theorem moveBy_color : (moveBy s dx dy).color = s.color := by
  unfold moveBy paint; split <;> rfl

/-- The picture after a Move, as a write or as it was. -/
theorem moveBy_pb : (moveBy s dx dy).pb =
    match paintedCell s dx dy with
    | none => s.pb
    | some p => PixelBuffer.write s.pb p s.color := by
  unfold moveBy paint; split <;> simp [*]

/-- What a cell reads as after a Move: the active colour where the Move stores, else as before. -/
theorem read_moveBy (q : Nat × Nat) : PixelBuffer.read (moveBy s dx dy).pb q =
    if paintedCell s dx dy = some q then s.color else PixelBuffer.read s.pb q := by
  rw [moveBy, read_paint]
  rfl

/-- A position names a cell exactly when it is that cell's coordinates and they are in the grid. -/
theorem cellAt_eq_some_iff (t : Int × Int) (q : Nat × Nat) : cellAt t = some q ↔
    t.1 = q.1 ∧ t.2 = q.2 ∧ q.1 < Config.width ∧ q.2 < Config.height := by
  obtain ⟨x, y⟩ := t
  obtain ⟨a, b⟩ := q
  unfold cellAt inBounds
  simp only [Bool.and_eq_true, decide_eq_true_eq, Option.ite_none_right_eq_some, Option.some.injEq,
    Prod.mk.injEq]
  omega

end Sys2Proof.Machine
end

