-- ==== Sys2Proof/Laws/PerInstr.lean ====
section
/-! SUPPORT. Laws/PerInstr.lean: a family with one lemma for each instruction: it is well formed, its
command is one that has an opcode, and decoding its opcode gives it back (30_encoding.md R54, R57). -/

/-- What the family says of an instruction. -/
def Sys2Proof.Laws.OpcodeIsItsOwn.Statement (i : Sys2Proof.Instr) : Prop :=
  i.wellFormed = true ∧ i.command.wellFormed = true ∧ Sys2Proof.cmd (Sys2Proof.encode i) = i

theorem Sys2Proof.Laws.OpcodeIsItsOwn.pushPop : Sys2Proof.Laws.OpcodeIsItsOwn.Statement .pushPop := ⟨rfl, rfl, rfl⟩
theorem Sys2Proof.Laws.OpcodeIsItsOwn.moveP0 : Sys2Proof.Laws.OpcodeIsItsOwn.Statement .moveP0 := ⟨rfl, rfl, rfl⟩
theorem Sys2Proof.Laws.OpcodeIsItsOwn.moveN0 : Sys2Proof.Laws.OpcodeIsItsOwn.Statement .moveN0 := ⟨rfl, rfl, rfl⟩
theorem Sys2Proof.Laws.OpcodeIsItsOwn.flipX : Sys2Proof.Laws.OpcodeIsItsOwn.Statement .flipX := ⟨rfl, rfl, rfl⟩
theorem Sys2Proof.Laws.OpcodeIsItsOwn.move0N : Sys2Proof.Laws.OpcodeIsItsOwn.Statement .move0N := ⟨rfl, rfl, rfl⟩
theorem Sys2Proof.Laws.OpcodeIsItsOwn.movePN : Sys2Proof.Laws.OpcodeIsItsOwn.Statement .movePN := ⟨rfl, rfl, rfl⟩
theorem Sys2Proof.Laws.OpcodeIsItsOwn.moveNN : Sys2Proof.Laws.OpcodeIsItsOwn.Statement .moveNN := ⟨rfl, rfl, rfl⟩
theorem Sys2Proof.Laws.OpcodeIsItsOwn.mirror : Sys2Proof.Laws.OpcodeIsItsOwn.Statement .mirror := ⟨rfl, rfl, rfl⟩
theorem Sys2Proof.Laws.OpcodeIsItsOwn.move0P : Sys2Proof.Laws.OpcodeIsItsOwn.Statement .move0P := ⟨rfl, rfl, rfl⟩
theorem Sys2Proof.Laws.OpcodeIsItsOwn.movePP : Sys2Proof.Laws.OpcodeIsItsOwn.Statement .movePP := ⟨rfl, rfl, rfl⟩
theorem Sys2Proof.Laws.OpcodeIsItsOwn.moveNP : Sys2Proof.Laws.OpcodeIsItsOwn.Statement .moveNP := ⟨rfl, rfl, rfl⟩
theorem Sys2Proof.Laws.OpcodeIsItsOwn.flipY : Sys2Proof.Laws.OpcodeIsItsOwn.Statement .flipY := ⟨rfl, rfl, rfl⟩
theorem Sys2Proof.Laws.OpcodeIsItsOwn.color : Sys2Proof.Laws.OpcodeIsItsOwn.Statement .color := ⟨rfl, rfl, rfl⟩
theorem Sys2Proof.Laws.OpcodeIsItsOwn.draw : Sys2Proof.Laws.OpcodeIsItsOwn.Statement .draw := ⟨rfl, rfl, rfl⟩
theorem Sys2Proof.Laws.OpcodeIsItsOwn.scaleP : Sys2Proof.Laws.OpcodeIsItsOwn.Statement .scaleP := ⟨rfl, rfl, rfl⟩
theorem Sys2Proof.Laws.OpcodeIsItsOwn.scaleN : Sys2Proof.Laws.OpcodeIsItsOwn.Statement .scaleN := ⟨rfl, rfl, rfl⟩
end

