-- ==== Sys2Proof/Tests/Slice0.lean ====
section
/-! SUPPORT. Tests/Slice0.lean: the smoke tests of WellFormed, every opcode word written out from the
table of 30_encoding.md R54, one-step tests with results from spec/95_test_vectors.md and the rules'
worked examples, and for each statement with hypotheses a witness that meets them. -/

namespace Sys2Proof.Tests

open Sys2Proof Sys2Proof.Machine

/-! ### WellFormed refuses an ill-formed term of each kind -/

theorem test_refuses_move_without_opcode : (Command.move .zero .zero).wellFormed = false := by decide
theorem test_refuses_flip_none : (Command.flip false false).wellFormed = false := by decide
theorem test_refuses_flip_both : (Command.flip true true).wellFormed = false := by decide
theorem test_refuses_empty_body : (Rule.mk 1 []).wellFormed = false := by decide
theorem test_refuses_long_body : (Rule.mk 1 (List.replicate 256 .draw)).wellFormed = false := by
  simp only [Rule.wellFormed, List.length_replicate]; rfl
theorem test_refuses_large_cycles : (Rule.mk 256 [.draw]).wellFormed = false := by decide
theorem test_refuses_program_with_bad_rule : programWellFormed [⟨1, [.draw]⟩, ⟨1, []⟩] = false := by decide

/-! ### Every opcode word, bit by bit from the table of R54 -/

theorem test_word_pushPop : decodeTableWord 8 0b00000000 = some .pushPop := by decide
theorem test_word_moveP0 : decodeTableWord 8 0b00000001 = some .moveP0 := by decide
theorem test_word_moveN0 : decodeTableWord 8 0b00000010 = some .moveN0 := by decide
theorem test_word_flipX : decodeTableWord 8 0b00000011 = some .flipX := by decide
theorem test_word_move0N : decodeTableWord 8 0b00000100 = some .move0N := by decide
theorem test_word_movePN : decodeTableWord 8 0b00000101 = some .movePN := by decide
theorem test_word_moveNN : decodeTableWord 8 0b00000110 = some .moveNN := by decide
theorem test_word_mirror : decodeTableWord 8 0b00000111 = some .mirror := by decide
theorem test_word_move0P : decodeTableWord 8 0b00001000 = some .move0P := by decide
theorem test_word_movePP : decodeTableWord 8 0b00001001 = some .movePP := by decide
theorem test_word_moveNP : decodeTableWord 8 0b00001010 = some .moveNP := by decide
theorem test_word_flipY : decodeTableWord 8 0b00001011 = some .flipY := by decide
theorem test_word_color : decodeTableWord 8 0b00001100 = some .color := by decide
theorem test_word_draw : decodeTableWord 8 0b00001101 = some .draw := by decide
theorem test_word_scaleP : decodeTableWord 8 0b00001110 = some .scaleP := by decide
theorem test_word_scaleN : decodeTableWord 8 0b00001111 = some .scaleN := by decide

/-- S1 of 95_test_vectors.md (30_encoding.md R61): the bytes `03 01 44 50`. -/
theorem test_decode_source_example :
    decodeBytes [0x03#8, 0x01#8, 0x44#8, 0x50#8] = .program [⟨1, [.move0N, .move0N, .movePN]⟩] := by decide

/-- 95_test_vectors.md 2.2: high nibble first, the pad of an odd count not read. -/
theorem test_nibble_order : decodeBytes [0x05#8, 0x01#8, 0xA1#8, 0xB2#8, 0xC3#8] =
    .program [⟨1, [.moveNP, .moveP0, .flipY, .moveN0, .color]⟩] := by decide

/-- 95_test_vectors.md 2.1: a frame after the terminator is no rule. -/
theorem test_terminator_ends_framing : decodeBytes [1#8, 1#8, 0x10#8, 0#8, 1#8, 1#8, 0x20#8] =
    .program [⟨1, [.moveP0]⟩] := by decide

/-- 95_test_vectors.md 2.1: the second frame lacks its third payload byte. -/
theorem test_truncated_second_frame :
    decodeBytes [1#8, 1#8, 0x10#8, 5#8, 1#8, 0x11#8, 0x11#8] = .truncated 7 := by decide

/-- 30_encoding.md R61 backwards. -/
theorem test_assemble_source_example :
    assemble 0#4 [⟨1, [.move0N, .move0N, .movePN]⟩] = [0x03#8, 0x01#8, 0x44#8, 0x50#8] := by decide

/-- The notation of 30_encoding.md R59. -/
theorem test_rule_line : ruleLine ⟨3, [.moveP0, .flipY]⟩ = "rule n=2 cycles=3: Move(1,0); Flip(0,1)" := by decide

/-- The two values of the colour index differ (00_scope.md R8). -/
theorem test_background_is_the_other_value : Config.bg = !Config.fg := by decide

/-! ### One instruction on a small state (95_test_vectors.md 2.4 to 2.6) -/

/-- The reset state with the cursor and the flags given. -/
def stateAt (x y : Int) (mirror : Bool) (flipX flipY : Sign) : State :=
  { State.reset with cx := x, cy := y, mirror := mirror, flipX := flipX, flipY := flipY }

/-- Cursor and listed cells after an instruction. -/
def drawn (i : Instr) (s : State) : Option ((Int × Int) × PixelBuffer) :=
  match exec i s with
  | .next t => some (t.cursor, t.pb)
  | .fault _ => none
  | .refused _ => none

theorem test_moveP0_reenters : drawn .moveP0 (stateAt (-1) 96 false .plus .plus) =
    some ((0, 96), [((0, 96), true)]) := by decide
theorem test_moveP0_background_erases :
    drawn .moveP0 { State.reset with color := false, pb := [((5, 5), true), ((137, 96), true), ((138, 0), true)] } =
      some ((137, 96), [((5, 5), true), ((138, 0), true)]) := by decide
theorem test_moveN0_left_edge : drawn .moveN0 (stateAt 0 96 false .plus .plus) = some ((-1, 96), []) := by decide
theorem test_moveN0_swap_then_flipY : drawn .moveN0 (stateAt 136 96 true .plus .minus) =
    some ((136, 97), [((136, 97), true)]) := by decide
theorem test_move0N_top_edge : drawn .move0N (stateAt 136 0 false .plus .plus) = some ((136, -1), []) := by decide
/-- The example of R88. -/
theorem test_move0N_swap_then_flipX : drawn .move0N (stateAt 136 96 true .minus .plus) =
    some ((137, 96), [((137, 96), true)]) := by decide
theorem test_movePN_one_coordinate_outside : drawn .movePN (stateAt 271 96 false .plus .plus) =
    some ((272, 95), []) := by decide
theorem test_movePN_both_flips : drawn .movePN (stateAt 136 96 false .minus .minus) =
    some ((135, 97), [((135, 97), true)]) := by decide
theorem test_moveNN_corner_cell : drawn .moveNN (stateAt 1 1 false .plus .plus) =
    some ((0, 0), [((0, 0), true)]) := by decide
theorem test_moveNN_no_sixteen_bit_wrap : drawn .moveNN (stateAt (-40000) (-40000) false .plus .plus) =
    some ((-40001, -40001), []) := by decide
theorem test_move0P_last_row : drawn .move0P (stateAt 136 190 false .plus .plus) =
    some ((136, 191), [((136, 191), true)]) := by decide
theorem test_move0P_bottom_edge : drawn .move0P (stateAt 136 191 false .plus .plus) = some ((136, 192), []) := by
  decide
theorem test_movePP_corner_out : drawn .movePP (stateAt 271 191 false .plus .plus) = some ((272, 192), []) := by
  decide
theorem test_movePP_draw_off_still_moves : drawn .movePP { State.reset with draw := false } =
    some ((137, 97), []) := by decide
/-- The example of R93. -/
theorem test_moveNP_mirror_and_flipX : drawn .moveNP (stateAt 136 96 true .minus .plus) =
    some ((135, 95), [((135, 95), true)]) := by decide
theorem test_moveNP_paint_keeps_the_order :
    drawn .moveNP { State.reset with pb := [((5, 5), true), ((135, 96), true), ((138, 0), true)] } =
      some ((135, 97), [((5, 5), true), ((135, 96), true), ((135, 97), true), ((138, 0), true)]) := by decide

theorem test_flipX_only_x : exec .flipX (stateAt 136 96 false .minus .minus) =
    .next (stateAt 136 96 false .plus .minus) := by rfl
theorem test_flipY_only_y : exec .flipY (stateAt 136 96 false .plus .plus) =
    .next (stateAt 136 96 false .plus .minus) := by rfl
theorem test_mirror_toggles : exec .mirror (stateAt 136 96 true .plus .plus) =
    .next (stateAt 136 96 false .plus .plus) := by rfl
theorem test_color_from_reset : exec .color State.reset = .next { State.reset with color := false } := by rfl
theorem test_draw_from_reset : exec .draw State.reset = .next { State.reset with draw := false } := by rfl
theorem test_pushPop_nothing : exec .pushPop State.reset = .next State.reset := by rfl
theorem test_scaleP_nothing : exec .scaleP State.reset = .next State.reset := by rfl
theorem test_scaleN_nothing : exec .scaleN State.reset = .next State.reset := by rfl

/-! ### One tick and one load -/

/-- The reset state with an image loaded and the decode position given. -/
def loaded (bytes : List Byte) (rulePc pc : Nat) : State :=
  (State.reset.withImage bytes).withPosition rulePc pc

/-- The image of 40_sequencer.md R84: `03 02 17 20  01 00 C0`. -/
def imageR84 : List Byte := [0x03#8, 0x02#8, 0x17#8, 0x20#8, 0x01#8, 0x00#8, 0xC0#8]

/-- R84, tick 5: position 4 of the first rule is body element 1, Mirror. -/
theorem test_tick_wraps_the_body :
    tick (loaded imageR84 0 4) = .next ⟨false, { loaded imageR84 0 5 with mirror := true }⟩ := by rfl

/-- R84, tick 7: both rules are exhausted, `(RULE_PC, PC)` goes to (2, 0) and the tick halts. -/
theorem test_tick_passes_to_the_end :
    tick (loaded imageR84 0 6) = .next ⟨true, loaded imageR84 2 0⟩ := by rfl

/-- 95_test_vectors.md 2.1: a rule with `cycles = 0` does not end the program. -/
theorem test_tick_skips_zero_cycles : (loaded [1#8, 0#8, 0x10#8, 1#8, 2#8, 0xC0#8] 0 0).pull =
    .command .color (loaded [1#8, 0#8, 0x10#8, 1#8, 2#8, 0xC0#8] 1 1) := by decide

/-- 95_test_vectors.md 2.7: the size check comes before the framing check. -/
theorem test_load_over_long : loadRom (some 4) [1#8, 1#8, 0x10#8, 2#8, 1#8] State.reset =
    .fault (.invalidAddress 4) := by rfl

/-- 95_test_vectors.md 2.7: a truncated image that fits. -/
theorem test_load_truncated : loadRom (some 4) [5#8, 1#8, 0x10#8] State.reset = .fault (.invalidAddress 3) := by
  rfl

/-- 60_exceptions.md R104: the code is 0 for `ok` and 1 for the fault. -/
theorem test_result_codes : OpResult.ok.code = some 0 ∧ (OpResult.fault (.invalidAddress 4)).code = some 1 ∧
    (OpResult.halted true).code = none := by decide

/-- 95_test_vectors.md P7, steps 11 and 12: the faulting load leaves the old program where it was. -/
theorem test_faulting_load_then_tick :
    session none [.loadRom [1#8, 1#8], .tick] (loaded [2#8, 1#8, 0x3D#8] 1 0) =
      .next ([.fault (.invalidAddress 2), .halted true], loaded [2#8, 1#8, 0x3D#8] 1 0) := by rfl

/-- 70_reset_and_hazards.md R119, R123. -/
theorem test_reset_then_tick : session none [.reset, .tick, .cursor] (loaded imageR84 0 3) =
    .next ([.nothing, .halted true, .cursor 136 96], State.reset) := by rfl

/-- The word of each opcode runs as the first instruction after reset. -/
theorem test_fetch_word_runs : step (State.reset.withFetchWord 8 0b1101) =
    .next { State.reset.withFetchWord 8 0b1101 with pc := 1, draw := false } := by rfl

/-! ### Witnesses: for each statement with hypotheses, values that meet them together -/

/-- A sound state: R84's image part-way through its first rule, one cell painted. -/
def sound : State := { loaded imageR84 0 4 with pb := [((137, 96), true)] }

/-- The frames of R84's image. -/
def framesR84 : List RuleFrame := [⟨0, 3, 2⟩, ⟨4, 1, 0⟩]

/-- The rules of R84's image. -/
def rulesR84 : List Rule := [⟨2, [.moveP0, .mirror, .moveN0]⟩, ⟨0, [.color]⟩]

theorem witness_framing : sound.framing = .frames framesR84 ∧ sound.decoding = .program rulesR84 := by decide

theorem inv_of_loaded (rulePc pc : Nat) (h : positionIn framesR84 rulePc pc) (pb : PixelBuffer)
    (hpb : PixelBuffer.wf pb ∧ PixelBuffer.inGrid pb) :
    ({ loaded imageR84 rulePc pc with pb := pb } : State).Inv (some 7) :=
  ⟨fun size hs => by cases hs; exact Nat.le_refl 7, rfl, ⟨framesR84, rfl, h⟩, hpb.1, hpb.2⟩

/-- The invariant, for PullsFollowTheCommandSequence, TheTwoFormsOfTheProgramPullAlike,
ARunAppliesTheWholeSequenceAndHalts, EveryHostOperationKeepsTheInvariant, ATickNeverFaultsOrRefuses and
ThePositionFitsSixteenBits, with the image's rules and, for the clauses of the first, a position with a
command left and the position at the end. -/
theorem witness_sound_state : sound.Inv (some 7) ∧ sound.decoding = .program rulesR84 ∧
    (commandSeq rulesR84)[seqIndex rulesR84 sound]? = some .mirror :=
  ⟨inv_of_loaded 0 4 ⟨by decide, by decide, by decide⟩ _ (by decide), by decide, by decide⟩

theorem witness_sound_state_at_the_end : (loaded imageR84 0 6).Inv (some 7) ∧
    (loaded imageR84 0 6).decoding = .program rulesR84 ∧
    (commandSeq rulesR84)[seqIndex rulesR84 (loaded imageR84 0 6)]? = none :=
  ⟨inv_of_loaded 0 6 ⟨by decide, by decide, by decide⟩ [] (by decide), by decide, by decide⟩

theorem witness_EveryStepKeepsTheInvariant : sound.Inv (some 7) ∧
    step sound = .next { sound with pc := 5, mirror := true } := ⟨witness_sound_state.1, by rfl⟩

theorem witness_ThePositionFitsSixteenBits : sound.Inv (some 7) ∧ sound.framing = .frames framesR84 ∧
    RuleFrame.mk 0 3 2 ∈ framesR84 := ⟨witness_sound_state.1, by decide, by decide⟩

/-- Both clauses with hypotheses, the payload's length and the missing byte at their boundary values. -/
theorem witness_DecodingFollowsTheGrammar :
    (3#8 ≠ 0#8 ∧ [0x12#8, 0x30#8].length = ((3#8).toNat + 1) / 2) ∧
    (255#8 ≠ 0#8 ∧ (List.replicate 128 0x11#8).length = ((255#8).toNat + 1) / 2) ∧
    (1#8 ≠ 0#8 ∧ ([] : List Byte).length < 1 + ((1#8).toNat + 1) / 2) ∧
    (3#8 ≠ 0#8 ∧ [1#8, 0x12#8].length < 1 + ((3#8).toNat + 1) / 2) :=
  ⟨by decide, ⟨by decide, by simp⟩, by decide, by decide⟩

theorem witness_DecodingAnAssembledProgramGivesItBack :
    programWellFormed rulesR84 = true ∧ ([] : List Byte) = [] ∧ [0#8, 5#8].head? = some 0#8 := by decide

/-- The same hypothesis as that of EveryProgramIsFinite. -/
theorem witness_DecodedRulesAreWellFormed : decodeBytes imageR84 = .program rulesR84 := by decide

theorem witness_APrependedRuleChangesNoLaterRule : (Rule.mk 0 [.draw]).wellFormed = true ∧
    decodeBytes imageR84 = .program rulesR84 ∧ decodeBytes [1#8] = .truncated 1 := by decide

theorem witness_NextPullsAsTheLoopSays : sound.framing = .frames framesR84 ∧
    (framesR84.length ≤ (loaded imageR84 2 0).rulePc ∧ (loaded imageR84 2 0).framing = .frames framesR84) ∧
    (framesR84[sound.rulePc]? = some ⟨0, 3, 2⟩ ∧ sound.pc < 3 * 2) ∧
    ((loaded imageR84 0 6).framing = .frames framesR84 ∧ framesR84[(loaded imageR84 0 6).rulePc]? = some ⟨0, 3, 2⟩ ∧
      3 * 2 ≤ (loaded imageR84 0 6).pc) ∧
    (framesR84[(loaded imageR84 1 0).rulePc]? = some ⟨4, 1, 0⟩ ∧ 1 * 0 ≤ (loaded imageR84 1 0).pc) := by decide

/-- Also the hypotheses of the inner implication: exec answers a next state. -/
theorem witness_AStepRunsTheInstructionAtTheDecodePosition : sound.framing = .frames framesR84 ∧
    framesR84[sound.rulePc]? = some ⟨0, 3, 2⟩ ∧ sound.pc < 3 * 2 ∧
    Memory.read sound.rom (0 + 2 + (sound.pc % 3) / 2) = some 0x17#8 ∧
    exec .mirror { sound with pc := 5 } = .next { sound with pc := 5, mirror := true } :=
  ⟨by decide, by decide, by decide, by decide, by rfl⟩

theorem witness_TickPullsOneCommandAndAppliesIt :
    (loaded imageR84 0 6).pull = .exhausted (loaded imageR84 2 0) ∧
    sound.pull = .command .mirror { sound with pc := 5 } := by decide

theorem witness_AHaltingTickChangesNothingTheHostSees :
    (tick (loaded imageR84 0 6) = .next ⟨true, loaded imageR84 2 0⟩ ∧
      (loaded imageR84 0 6).framing = .frames framesR84 ∧ (loaded imageR84 0 6).rulePc < framesR84.length) ∧
    (loaded imageR84 2 0).framing = .frames framesR84 ∧ framesR84.length ≤ (loaded imageR84 2 0).rulePc :=
  ⟨⟨by rfl, by decide, by decide⟩, by decide, by decide⟩

theorem witness_HaltedMeansNoCommandIsLeft : (loaded imageR84 0 6).framing = .frames framesR84 ∧
    tick (loaded imageR84 0 6) = .next ⟨true, loaded imageR84 2 0⟩ ∧
    framesR84[0]? = some ⟨0, 3, 2⟩ ∧ framesR84[1]? = some ⟨4, 1, 0⟩ := ⟨by decide, by rfl, by decide, by decide⟩

/-- Position 5 is the last of the 6 of R84's first rule. -/
theorem witness_ARuleRepeatsItsBodyRoundRobin : let r := Rule.mk 2 [.moveP0, .mirror, .moveN0]
    5 < r.body.length * r.cycles ∧ r.wellFormed = true := by decide

theorem witness_EqualReadsMeanEqualPictures : PixelBuffer.wf sound.pb ∧
    ∀ p, PixelBuffer.read sound.pb p = PixelBuffer.read sound.pb p := ⟨by decide, fun _ => rfl⟩

/-- A Move that stores, at the last cell of the grid, and one that stores nothing, just past it. -/
theorem witness_EveryMoveCompletes :
    paintedCell (stateAt 270 190 false .plus .plus) .plus .plus = some (271, 191) ∧
    paintedCell (stateAt 271 190 false .plus .plus) .plus .plus = none ∧
    paintedCell { State.reset with draw := false } .plus .zero = none := by decide

/-- The seventh entry of Move(1,0)'s table, in a state with that column's flags. -/
theorem witness_MoveDisplacementTables : let s := stateAt 5 5 true .minus .plus
    let row : List (Int × Int) := [(1, 0), (1, 0), (-1, 0), (-1, 0), (0, 1), (0, -1), (0, 1), (0, -1)]
    row[6]? = some (0, 1) ∧ (s.mirror, s.flipX, s.flipY) = (true, Sign.minus, Sign.plus) := by decide

theorem witness_MirrorOnlySwapsThePayload : Instr.movePP ∈ [Instr.movePP, Instr.moveNN] := by decide

theorem witness_ColorTogglesItsFlag : paintedCell State.reset .plus .zero = some (137, 96) := by decide

theorem witness_ReservedCommandsOnlyTakeATick :
    (loaded [1#8, 1#8, 0x00#8] 0 0).pull = .command .pushPop (loaded [1#8, 1#8, 0x00#8] 0 1) ∧
    (loaded [1#8, 1#8, 0xE0#8] 0 0).pull = .command .scaleP (loaded [1#8, 1#8, 0xE0#8] 0 1) ∧
    (loaded [1#8, 1#8, 0xF0#8] 0 0).pull = .command .scaleN (loaded [1#8, 1#8, 0xF0#8] 0 1) := by decide

theorem witness_CommandsChangeTheDrawingStateOnly :
    exec .flipX State.reset = .next { State.reset with flipX := .minus } := by rfl

/-- PushPop is none of the toggles and no Move. -/
theorem witness_EachFlagHasOneWriter : exec .pushPop State.reset = .next State.reset ∧
    Instr.pushPop ≠ .flipX ∧ Instr.pushPop ≠ .flipY ∧ Instr.pushPop ≠ .mirror ∧ Instr.pushPop ≠ .draw ∧
    Instr.pushPop ≠ .color ∧ ∀ dx dy, Instr.pushPop.command ≠ .move dx dy :=
  ⟨by rfl, by decide, by decide, by decide, by decide, by decide, fun _ _ h => by cases h⟩

theorem witness_AStepMovesOneCellAndPaintsOneCell :
    step (State.reset.withFetchWord 8 5) =
      .next { State.reset.withFetchWord 8 5 with pc := 1, cx := 137, cy := 95, pb := [((137, 95), true)] } ∧
    (((136 : Nat) : Int), ((96 : Nat) : Int)) ≠ ((137 : Int), (95 : Int)) := ⟨by rfl, by decide⟩

theorem witness_LoadRomReplacesTheProgramOnly :
    loadRom (some 7) imageR84 sound = .next { sound with pc := 0 } := by rfl

theorem witness_AnOverLongImageFaults : 6 < imageR84.length := by decide

/-- First clause: two complete odd frames with different pad nibbles (0 and F), then a count byte alone.
Second clause: one complete rule, then a count of 5 with one of its four bytes missing, and a count of 1
with nothing after it. The store is exactly full in each. -/
theorem witness_ATruncatedImageFaults :
    (fits (some 7) [1#8, 1#8, 0x10#8, 1#8, 1#8, 0x1F#8, 5#8].length ∧
      decodeBytes [1#8, 1#8, 0x10#8, 1#8, 1#8, 0x1F#8, 5#8] = .truncated 7) ∧
    (1#8 ≠ 0#8 ∧ ([] : List Byte).length < 1 + ceil2 (1#8).toNat ∧
      fits (some 1) (assemble 0#4 [] ++ [1#8]).length) ∧
    programWellFormed [⟨1, [.moveP0]⟩] = true ∧ 5#8 ≠ 0#8 ∧
    [1#8, 0x11#8, 0x11#8].length < 1 + ceil2 (5#8).toNat ∧
    fits (some 7) (assemble 0#4 [⟨1, [.moveP0]⟩] ++ 5#8 :: [1#8, 0x11#8, 0x11#8]).length :=
  ⟨⟨fun size hs => by cases hs; decide, by decide⟩,
    ⟨by decide, by decide, fun size hs => by cases hs; decide⟩,
    by decide, by decide, by decide, fun size hs => by cases hs; decide⟩

theorem witness_AFaultingLoadLeavesTheMachineAsItWas :
    (loadRom (some 4) imageR84 sound = .fault (.invalidAddress 4) ∧
      session (some 4) [.cursor] sound = .next ([.cursor 136 96], sound)) ∧
    perform (some 7) (.loadRom imageR84) sound = .next (.ok, { sound with pc := 0 }) :=
  ⟨⟨by rfl, by rfl⟩, by rfl⟩

/-- Each of the three outcomes: accepted in an exactly full store, over-long by one byte, truncated. -/
theorem witness_TheHostReceivesOneCodeForEachLoad :
    perform (some 7) (.loadRom imageR84) sound = .next (.ok, { sound with pc := 0 }) ∧
    perform (some 6) (.loadRom imageR84) sound = .next (.fault (.invalidAddress 6), sound) ∧
    perform (some 7) (.loadRom [1#8, 1#8]) sound = .next (.fault (.invalidAddress 2), sound) :=
  ⟨by rfl, by rfl, by rfl⟩

theorem witness_AnImageWithoutRulesHaltsAtOnce : fits (some 0) ([] : List Byte).length ∧
    fits (some 3) [0#8, 0x11#8, 0x22#8].length ∧ [0#8, 0x11#8, 0x22#8].head? = some 0#8 :=
  ⟨fun size hs => by cases hs; decide, fun size hs => by cases hs; decide, by decide⟩

theorem witness_TheFetchWordRunsNext : 4 ≤ 4 ∧ 4 ≤ 8 := by decide

end Sys2Proof.Tests
end

section
/-! # Facts about the state and its invariant (10_state.md)

What the framing loop, one command, one pull and the source's iterator do, each said once, for the
statements of 10_state.md further below. -/

namespace Sys2Proof

/-! ### Frames and the decoded program -/

/-- Everything a framing that succeeds can have done at the frame start `off`: found no frame there, or
one frame of at least 3 bytes that lies in the image, and the frames behind it (30_encoding.md R50, R51). -/
theorem frameFrom_frames_cases {read : Nat → Option Byte} {len off : Nat} {fs : List RuleFrame}
    (h : frameFrom read len off = .frames fs) :
    fs = [] ∨ ∃ (count cycles : Byte) (rest : List RuleFrame), count.toNat ≠ 0 ∧
      off + 2 + ceil2 count.toNat ≤ len ∧ read off = some count ∧ read (off + 1) = some cycles ∧
      frameFrom read len (off + 2 + ceil2 count.toNat) = .frames rest ∧
      fs = ⟨off, count.toNat, cycles.toNat⟩ :: rest := by
  rw [frameFrom_eq] at h
  split at h
  · split at h
    · cases h
    · rename_i count hcount
      split at h
      · cases h; exact .inl rfl
      · rename_i hne
        split at h
        · rename_i hfit
          split at h
          · cases h
          · rename_i cycles hcycles
            split at h
            · cases h
            · rename_i rest hrest
              cases h
              exact .inr ⟨count, cycles, rest, hne, hfit, hcount, hcycles, hrest, rfl⟩
        · cases h
  · cases h; exact .inl rfl

/-- A frame is at least 3 bytes long, so an image holds at most `L div 3` of them (30_encoding.md R51). -/
theorem frameFrom_length_le {read : Nat → Option Byte} {len off : Nat} {fs : List RuleFrame}
    (h : frameFrom read len off = .frames fs) : 3 * fs.length ≤ len - off := by
  induction off using frame_start_induction len generalizing fs with
  | step off ih =>
    rcases frameFrom_frames_cases h with rfl | ⟨count, cycles, rest, hne, hfit, -, -, hrest, rfl⟩
    · simp
    · have hbytes : 1 ≤ ceil2 count.toNat := by unfold ceil2; omega
      have hlater := ih _ (by omega) (by omega) hrest
      rw [List.length_cons]
      omega

/-- The rule that a frame of the image decodes to stands at the frame's own index. -/
theorem getElem?_rule_of_frame {read : Nat → Option Byte} {fs : List RuleFrame} {rules : List Rule}
    (hrel : List.Forall₂ (fun f r => frameRule read f = some r) fs rules) {k : Nat} {f : RuleFrame}
    (hf : fs[k]? = some f) : ∃ r, rules[k]? = some r ∧ frameRule read f = some r := by
  obtain ⟨hlen, hget⟩ := List.forall₂_iff_get.mp hrel
  obtain ⟨hk, rfl⟩ := List.getElem?_eq_some_iff.mp hf
  exact ⟨rules[k], List.getElem?_eq_getElem _, hget k hk (hlen ▸ hk)⟩

namespace Machine

/-- The command at a position inside a frame's rule is body element `p mod n` of the decoded rule
(40_sequencer.md R67). -/
theorem ruleCmd_of_frameRule {read : Nat → Option Byte} {f : RuleFrame} {r : Rule}
    (h : frameRule read f = some r) (hn : 0 < f.n) (p : Nat) :
    ∃ c, r.body[p % f.n]? = some c ∧ ruleCmd read f p = some c := by
  obtain ⟨-, hlen, hnib⟩ := frameRule_eq_some h
  have hlt : p % f.n < f.n := Nat.mod_lt p hn
  have hbody : r.body[p % f.n]? = some (r.body[p % f.n]'(hlen ▸ hlt)) := List.getElem?_eq_getElem _
  exact ⟨_, hbody, (hnib _ hlt).trans hbody⟩

/-! ### One command -/

/-- Every instruction answers a next state, that of its kind and payload (40_sequencer.md R73). -/
theorem exec_eq_applyCommand (i : Instr) (s : State) : exec i s = .next (applyCommand i.command s) := by
  cases i <;> rfl

theorem eq_applyCommand_of_exec {i : Instr} {s t : State} (h : exec i s = .next t) :
    t = applyCommand i.command s := by
  rw [exec_eq_applyCommand] at h
  cases h
  rfl

section
variable (c : Command) (s : State)

@[simp] theorem applyCommand_rom : (applyCommand c s).rom = s.rom := by
  cases c <;> simp [applyCommand, flipBy]
@[simp] theorem applyCommand_romLen : (applyCommand c s).romLen = s.romLen := by
  cases c <;> simp [applyCommand, flipBy]
@[simp] theorem applyCommand_rulePc : (applyCommand c s).rulePc = s.rulePc := by
  cases c <;> simp [applyCommand, flipBy]
@[simp] theorem applyCommand_pc : (applyCommand c s).pc = s.pc := by
  cases c <;> simp [applyCommand, flipBy]

end

/-- A Move stores to a cell of the grid (20_memory.md R34, R46). -/
theorem paintedCell_inGrid {s : State} {dx dy : Delta} {p : Nat × Nat}
    (h : paintedCell s dx dy = some p) : p.1 < Config.width ∧ p.2 < Config.height := by
  unfold paintedCell at h
  split at h
  · obtain ⟨-, -, hgrid⟩ := (cellAt_eq_some_iff _ _).mp h
    exact hgrid
  · cases h

/-- What a command does to the picture: nothing, or one write of the active colour inside the grid
(10_state.md R27). -/
theorem applyCommand_pb (c : Command) (s : State) : (applyCommand c s).pb = s.pb ∨
    ∃ p : Nat × Nat, (p.1 < Config.width ∧ p.2 < Config.height) ∧
      (applyCommand c s).pb = PixelBuffer.write s.pb p s.color := by
  cases c with
  | move dx dy =>
    rw [applyCommand, moveBy_pb]
    cases hp : paintedCell s dx dy with
    | none => exact .inl rfl
    | some p => exact .inr ⟨p, paintedCell_inGrid hp, rfl⟩
  | pushPop | flip | mirror | color | draw | scale => exact .inl rfl

/-! ### The decode position -/

/-- An induction that follows `Next()` from a decode position (40_sequencer.md R70): past the rules, at
a rule with a command left, or at an exhausted rule, where it goes on at the start of the next one. -/
theorem position_induction {fs : List RuleFrame} {motive : Nat → Nat → Prop}
    (past : ∀ r p, fs.length ≤ r → motive r p)
    (left : ∀ r p f, fs[r]? = some f → p < ruleLength f → motive r p)
    (pass : ∀ r p f, fs[r]? = some f → ruleLength f ≤ p → motive (r + 1) 0 → motive r p)
    (r p : Nat) : motive r p := by
  induction hk : fs.length - r generalizing r p with
  | zero => exact past r p (by omega)
  | succ k ih =>
    have hr : r < fs.length := by omega
    have hf : fs[r]? = some fs[r] := List.getElem?_eq_getElem hr
    by_cases hp : p < ruleLength fs[r]
    · exact left r p _ hf hp
    · exact pass r p _ hf (by omega) (ih (r + 1) 0 (by omega))

/-- A position in the frames stays one when it advances over a command. -/
theorem positionIn_succ {fs : List RuleFrame} {r p : Nat} {f : RuleFrame} (hf : fs[r]? = some f)
    (hp : p < ruleLength f) : positionIn fs r (p + 1) := by
  obtain ⟨hr, -⟩ := List.getElem?_eq_some_iff.mp hf
  refine ⟨hr.le, fun g hg => ?_, fun he => absurd he hr.ne⟩
  rw [hf] at hg
  cases hg
  exact hp

theorem positionIn_zero {fs : List RuleFrame} {r : Nat} (hr : r ≤ fs.length) : positionIn fs r 0 :=
  ⟨hr, fun _ _ => Nat.zero_le _, fun _ => rfl⟩

/-- `Next()` past the last rule: no command, nothing moves (40_sequencer.md R70). -/
theorem pull_of_length_le {s : State} {fs : List RuleFrame} (h : s.framing = .frames fs)
    (hr : fs.length ≤ s.rulePc) : s.pull = .exhausted s := by
  simp [State.pull, h, List.drop_eq_nil_of_le hr, seek]

/-- `Next()` at a rule with a command left: that command, and `PC` one further. -/
theorem pull_of_lt {s : State} {fs : List RuleFrame} {f : RuleFrame} {c : Instr}
    (h : s.framing = .frames fs) (hf : fs[s.rulePc]? = some f) (hp : s.pc < ruleLength f)
    (hc : ruleCmd (Memory.read s.rom) f s.pc = some c) :
    s.pull = .command c (s.withPosition s.rulePc (s.pc + 1)) := by
  obtain ⟨hr, rfl⟩ := List.getElem?_eq_some_iff.mp hf
  simp only [State.pull, h, List.drop_eq_getElem_cons hr, seek, if_pos hp, hc]

/-- `Next()` at an exhausted rule is `Next()` at the start of the rule behind it. -/
theorem pull_of_le {s : State} {fs : List RuleFrame} {f : RuleFrame} (h : s.framing = .frames fs)
    (hf : fs[s.rulePc]? = some f) (hp : ruleLength f ≤ s.pc) :
    s.pull = (s.withPosition (s.rulePc + 1) 0).pull := by
  obtain ⟨hr, rfl⟩ := List.getElem?_eq_some_iff.mp hf
  simp only [State.pull, framing_withPosition, h, List.drop_eq_getElem_cons hr, seek,
    if_neg (Nat.not_lt.mpr hp)]
  rfl

/-! ### The source's iterator -/

/-- At the start of a rule the source's rules from it on all stand at 0. -/
theorem sourceForm_zero (rules : List Rule) (k : Nat) : sourceForm rules k 0 =
    ⟨(rules.take k).map fun r => ⟨r, r.body.length * r.cycles⟩, (rules.drop k).map fun r => ⟨r, 0⟩⟩ := by
  unfold sourceForm
  cases rules.drop k <;> rfl

/-- The source's form of a position in the rule at index `k`. -/
theorem sourceForm_of_getElem? {rules : List Rule} {k : Nat} {r : Rule} (hr : rules[k]? = some r) (p : Nat) :
    sourceForm rules k p = ⟨(rules.take k).map fun r => ⟨r, r.body.length * r.cycles⟩,
      ⟨r, p⟩ :: (rules.drop (k + 1)).map fun r => ⟨r, 0⟩⟩ := by
  obtain ⟨hk, rfl⟩ := List.getElem?_eq_some_iff.mp hr
  simp only [sourceForm, List.drop_eq_getElem_cons hk]

/-- The source's pull past the last rule: no command, nothing moves. -/
theorem sourceNext_of_length_le {rules : List Rule} {k : Nat} (hk : rules.length ≤ k) (p : Nat) :
    sourceNext (sourceForm rules k p) = (none, sourceForm rules k p) := by
  simp [sourceForm, List.drop_eq_nil_of_le hk, sourceNext, sourceNextFrom]

/-- The source's pull at a rule with a command left. -/
theorem sourceNext_of_lt {rules : List Rule} {k p : Nat} {r : Rule} {c : Instr} (hr : rules[k]? = some r)
    (hp : p < r.body.length * r.cycles) (hc : r.body[p % r.body.length]? = some c) :
    sourceNext (sourceForm rules k p) = (some c, sourceForm rules k (p + 1)) := by
  simp [sourceForm_of_getElem? hr, sourceNext, sourceNextFrom, sourceRuleNext, hp, hc]

/-- The source's pull at a rule that stands at its end is the pull at the start of the rule behind it. -/
theorem sourceNext_at_end {rules : List Rule} {k : Nat} {r : Rule} (hr : rules[k]? = some r) :
    sourceNext (sourceForm rules k (r.body.length * r.cycles)) = sourceNext (sourceForm rules (k + 1) 0) := by
  simp [sourceForm_of_getElem? hr, sourceForm_zero, sourceNext, sourceNextFrom, sourceRuleNext,
    List.take_add_one, hr]

/-! ### Under the invariant -/

section
variable {romSize : Option Nat} {s : State}

/-- The invariant speaks of the image, the decode position and the picture alone. -/
theorem State.Inv.of_same_image {t : State} (h : s.Inv romSize) (hrom : t.rom = s.rom)
    (hlen : t.romLen = s.romLen)
    (hpos : ∃ fs, s.framing = .frames fs ∧ positionIn fs t.rulePc t.pc)
    (hpb : PixelBuffer.wf t.pb ∧ PixelBuffer.inGrid t.pb) : t.Inv romSize where
  romFits := hlen ▸ h.romFits
  romDense := by rw [hrom, hlen]; exact h.romDense
  framed := by
    have hframing : t.framing = s.framing := by simp only [State.framing, hrom, hlen]
    rwa [hframing]
  pbCanonical := hpb.1
  pbInGrid := hpb.2

/-- A decode position in the frames keeps the invariant. -/
theorem State.Inv.withPosition {fs : List RuleFrame} {r p : Nat} (h : s.Inv romSize)
    (hfs : s.framing = .frames fs) (hpos : positionIn fs r p) : (s.withPosition r p).Inv romSize :=
  h.of_same_image rfl rfl ⟨fs, hfs, hpos⟩ ⟨h.pbCanonical, h.pbInGrid⟩

/-- Applying a command keeps the invariant. -/
theorem State.Inv.applyCommand (h : s.Inv romSize) (c : Command) : (applyCommand c s).Inv romSize := by
  refine h.of_same_image (applyCommand_rom c s) (applyCommand_romLen c s) (by simpa using h.framed) ?_
  rcases applyCommand_pb c s with hpb | ⟨p, hp, hpb⟩
  · rw [hpb]
    exact ⟨h.pbCanonical, h.pbInGrid⟩
  · rw [hpb]
    exact ⟨PixelBuffer.wf_write p s.color h.pbCanonical, PixelBuffer.inGrid_write s.color h.pbInGrid hp⟩

/-- The image of a sound state holds every nibble of its frames (20_memory.md R36). -/
theorem State.Inv.ruleCmd_isSome {fs : List RuleFrame} {f : RuleFrame} (h : s.Inv romSize)
    (hfs : s.framing = .frames fs) (hf : f ∈ fs) (p : Nat) :
    (ruleCmd (Memory.read s.rom) f p).isSome = true := by
  have hin := frameFrom_inside _ _ hfs f hf
  obtain ⟨-, hn, -⟩ := id hin
  have hread := fun a (ha : a < s.romLen) => Memory.read_isSome_of_dense h.romDense ha
  simpa [ruleCmd] using nib_isSome_of_inside hread hin (Nat.mod_lt p hn)

/-- A pull from a sound state names a command or finds the program exhausted, and its state is sound. -/
theorem State.Inv.pull (h : s.Inv romSize) :
    (∃ t, s.pull = .exhausted t ∧ t.Inv romSize) ∨ ∃ c t, s.pull = .command c t ∧ t.Inv romSize := by
  obtain ⟨fs, hfs, hle, -, hend⟩ := h.framed
  rcases pull_cases hfs with ⟨r, p, hseek, hpull⟩ | ⟨f, r, p, hseek, hcmd⟩
  · obtain ⟨hr, hp, -⟩ := seek_none hseek
    have hr' : r = fs.length := by rw [hr, List.length_drop]; omega
    have hp' : p = 0 := by
      rw [hp]
      split
      · rename_i hnil
        exact hend (hle.antisymm (List.drop_eq_nil_iff.mp hnil))
      · rfl
    subst hr' hp'
    exact .inl ⟨_, hpull, h.withPosition hfs (positionIn_zero le_rfl)⟩
  · obtain ⟨hlt, -⟩ := seek_some hseek
    obtain ⟨hr, hget⟩ := seek_some_getElem hseek
    have hf : fs[r]? = some f := by
      rwa [List.getElem?_drop, Nat.add_sub_cancel' hr] at hget
    rcases hcmd with ⟨hnone, -⟩ | ⟨c, -, hpull⟩
    · have hsome := h.ruleCmd_isSome hfs (List.mem_of_getElem? hf) p
      simp [hnone] at hsome
    · exact .inr ⟨c, _, hpull, h.withPosition hfs (positionIn_succ hf hlt)⟩

/-- A tick from a sound state answers a sound state (60_exceptions.md R104 class (b), 10_state.md R25). -/
theorem State.Inv.tick (h : s.Inv romSize) : ∃ b t, tick s = .next ⟨b, t⟩ ∧ t.Inv romSize := by
  rcases h.pull with ⟨t, hpull, ht⟩ | ⟨c, t, hpull, ht⟩
  · exact ⟨true, t, by simp [Machine.tick, hpull], ht⟩
  · exact ⟨false, _, by simp [Machine.tick, hpull, exec_eq_applyCommand, ticked], ht.applyCommand c.command⟩

/-- An image that fits and frames, once loaded, leaves a sound state (40_sequencer.md R76). -/
theorem State.Inv.withImage {bytes : List Byte} {fs : List RuleFrame} (h : s.Inv romSize)
    (hfits : fits romSize bytes.length)
    (hfs : frameImage (fun a => bytes[a]?) bytes.length = .frames fs) :
    (s.withImage bytes).Inv romSize where
  romFits := hfits
  romDense := Memory.dense_ofBytes bytes
  framed := ⟨fs, (framing_withImage s bytes).trans hfs, positionIn_zero (Nat.zero_le _)⟩
  pbCanonical := h.pbCanonical
  pbInGrid := h.pbInGrid

end

/-- The reset state is sound for a store of any capacity (10_state.md R26). -/
theorem inv_reset (romSize : Option Nat) : State.reset.Inv romSize where
  romFits := fun _ _ => Nat.zero_le _
  romDense := rfl
  framed := ⟨[], rfl, positionIn_zero (Nat.zero_le _)⟩
  pbCanonical := PixelBuffer.wf_reset
  pbInGrid := PixelBuffer.inGrid_reset

/-- Every host operation on a sound state answers a result and a sound state. -/
theorem State.Inv.perform {romSize : Option Nat} {s : State} (h : s.Inv romSize) (op : HostOp) :
    ∃ r t, perform romSize op s = .next (r, t) ∧ t.Inv romSize := by
  cases op with
  | reset => exact ⟨.nothing, State.reset, rfl, inv_reset romSize⟩
  | loadRom bytes =>
    rw [Machine.perform]
    rcases loadRom_cases romSize bytes s with ⟨a, -, hload⟩ | ⟨-, -, hload⟩ | ⟨fs, hfits, hfs, hload⟩
    · exact ⟨_, s, by rw [hload, loadResult_fault], h⟩
    · exact ⟨_, s, by rw [hload, loadResult_fault], h⟩
    · exact ⟨.ok, _, by rw [hload, loadResult_next], h.withImage ((overLong_eq_none_iff _ _).mp hfits) hfs⟩
  | tick =>
    obtain ⟨b, t, htick, ht⟩ := h.tick
    exact ⟨.halted b, t, by simp [Machine.perform, htick, tickResult], ht⟩
  | cursor => exact ⟨_, s, rfl, h⟩
  | pixelBuffer => exact ⟨_, s, rfl, h⟩

/-- Every sequence of host operations on a sound state answers a result each and a sound state. -/
theorem State.Inv.session {romSize : Option Nat} {s : State} (h : s.Inv romSize) (ops : List HostOp) :
    ∃ rs t, session romSize ops s = .next (rs, t) ∧ rs.length = ops.length ∧ t.Inv romSize := by
  induction ops generalizing s with
  | nil => exact ⟨[], s, rfl, rfl, h⟩
  | cons op ops ih =>
    obtain ⟨r, t, hop, ht⟩ := h.perform op
    obtain ⟨rs, u, hops, hlen, hu⟩ := ih ht
    exact ⟨r :: rs, u, by simp [Machine.session, hop, hops], by simp [hlen], hu⟩

/-! ### The two forms of the program -/

/-- From a position in the frames of a decoded image, the source's pull and the machine's give the same
command, or both none, and leave corresponding positions (10_state.md R16). -/
theorem pull_follows_sourceNext {s : State} {fs : List RuleFrame} {rules : List Rule}
    (hfs : s.framing = .frames fs)
    (hrel : List.Forall₂ (fun f r => frameRule (Memory.read s.rom) f = some r) fs rules) (k p : Nat)
    (hpos : positionIn fs k p) :
    (∃ c t, sourceNext (sourceForm rules k p) = (some c, sourceForm rules t.rulePc t.pc) ∧
      (s.withPosition k p).pull = .command c t) ∨
    ∃ t, sourceNext (sourceForm rules k p) = (none, sourceForm rules t.rulePc t.pc) ∧
      (s.withPosition k p).pull = .exhausted t := by
  induction k, p using position_induction (fs := fs) with
  | past k p hk =>
    exact .inr ⟨_, sourceNext_of_length_le (hrel.length_eq ▸ hk) p, pull_of_length_le hfs hk⟩
  | left k p f hf hp =>
    obtain ⟨r, hr, hrule⟩ := getElem?_rule_of_frame hrel hf
    obtain ⟨hcycles, hlen, -⟩ := frameRule_eq_some hrule
    have hn : 0 < f.n := Nat.pos_of_mul_pos_right (Nat.zero_lt_of_lt hp)
    obtain ⟨c, hbody, hcmd⟩ := ruleCmd_of_frameRule hrule hn p
    refine .inl ⟨c, _, sourceNext_of_lt hr ?_ (hlen ▸ hbody), pull_of_lt hfs hf hp hcmd⟩
    rwa [hlen, hcycles]
  | pass k p f hf hp ih =>
    obtain ⟨r, hr, hrule⟩ := getElem?_rule_of_frame hrel hf
    obtain ⟨hcycles, hlen, -⟩ := frameRule_eq_some hrule
    obtain ⟨-, hinside, -⟩ := hpos
    have hend : p = r.body.length * r.cycles := by
      rw [hlen, hcycles]
      exact (hinside f hf).antisymm hp
    obtain ⟨hk, -⟩ := List.getElem?_eq_some_iff.mp hf
    have hpull : (s.withPosition k p).pull = (s.withPosition (k + 1) 0).pull := pull_of_le hfs hf hp
    rw [hpull, hend, sourceNext_at_end hr]
    exact ih (positionIn_zero hk)

/-! ### The end of the program -/

/-- A tick reports `halted = 1` exactly when `Next()` finds the program exhausted. -/
theorem tick_halts_iff (s : State) : (∃ t, tick s = .next ⟨true, t⟩) ↔ ∃ t, s.pull = .exhausted t := by
  rcases tick_cases s with ⟨hpull, htick⟩ | ⟨t, hpull, htick⟩ | ⟨c, t, hpull, htick⟩
  · simp [hpull, htick]
  · simp [hpull, htick]
  · simp [hpull, htick, exec_eq_applyCommand, ticked]

/-- No rule from the position `(k, p)` on has a command left. -/
def noneLeft (fs : List RuleFrame) (k p : Nat) : Prop :=
  ∀ r f, k ≤ r → fs[r]? = some f → ruleLength f ≤ if r = k then p else 0

/-- At an exhausted rule it is the later rules that matter. -/
theorem noneLeft_succ_iff {fs : List RuleFrame} {k p : Nat} {f : RuleFrame} (hf : fs[k]? = some f)
    (hp : ruleLength f ≤ p) : noneLeft fs k p ↔ noneLeft fs (k + 1) 0 := by
  constructor
  · intro h r g hr hg
    have hlater := h r g (by omega) hg
    rw [if_neg (by omega)] at hlater
    omega
  · intro h r g hr hg
    split
    · rename_i hrk
      subst hrk
      rw [hf] at hg
      cases hg
      exact hp
    · have hlater := h r g (by omega) hg
      rwa [ite_self] at hlater

/-- `Next()` finds the program exhausted exactly when no rule from its position on has a command left. -/
theorem pull_exhausted_iff_noneLeft {s : State} {fs : List RuleFrame} (hfs : s.framing = .frames fs)
    (k p : Nat) : (∃ t, (s.withPosition k p).pull = .exhausted t) ↔ noneLeft fs k p := by
  induction k, p using position_induction (fs := fs) with
  | past k p hk =>
    refine iff_of_true ⟨_, pull_of_length_le hfs hk⟩ fun r f hr hf => ?_
    obtain ⟨hlt, -⟩ := List.getElem?_eq_some_iff.mp hf
    omega
  | left k p f hf hp =>
    refine iff_of_false ?_ fun h => ?_
    · rintro ⟨t, ht⟩
      obtain ⟨gs, r, q, hgs, hseek, -⟩ := pull_exhausted ht
      obtain rfl : fs = gs := Framing.frames.inj (hfs.symm.trans hgs)
      obtain ⟨-, -, hhead, -⟩ := seek_none hseek
      exact absurd hp (Nat.not_lt.mpr (hhead f (by simpa using hf)))
    · have hexhausted := h k f le_rfl hf
      rw [if_pos rfl] at hexhausted
      omega
  | pass k p f hf hp ih =>
    have hpull : (s.withPosition k p).pull = (s.withPosition (k + 1) 0).pull := pull_of_le hfs hf hp
    rw [hpull, noneLeft_succ_iff hf hp]
    exact ih

/-! ### The canonical picture -/

/-- Two canonical pictures that read alike list the same cells. -/
theorem PixelBuffer.mem_of_read_eq {pb pb' : PixelBuffer} (h : PixelBuffer.wf pb) (h' : PixelBuffer.wf pb')
    (hread : ∀ p, PixelBuffer.read pb p = PixelBuffer.read pb' p) {c : (Nat × Nat) × Bool} (hc : c ∈ pb) :
    c ∈ pb' := by
  obtain ⟨p, v⟩ := c
  obtain rfl : v = true := h.2 (p, v) hc
  rw [← PixelBuffer.read_eq_true_iff h', ← hread]
  exact (PixelBuffer.read_eq_true_iff h p).mpr hc

end Machine
end Sys2Proof
end

section
/-! # The statements of 10_state.md -/

namespace Sys2Proof.Machine

/-- Settles O15, by the induction that follows `Next()` over the rules: both pulls name the current
rule's command, or both pass an exhausted rule that the invariant puts at its end. -/
theorem theTwoFormsOfTheProgramPullAlike : Obligations.TheTwoFormsOfTheProgramPullAlike := by
  intro romSize s rules hinv hdec
  obtain ⟨fs, hfs, hpos⟩ := hinv.framed
  obtain ⟨gs, hgs, hrel⟩ := decodeImage_program hdec
  obtain rfl : fs = gs := Framing.frames.inj (hfs.symm.trans hgs)
  rcases pull_follows_sourceNext hfs hrel s.rulePc s.pc hpos with ⟨c, t, hsource, hpull⟩ | ⟨t, hsource, hpull⟩
  · rw [hsource]
    exact ⟨t, hpull, rfl⟩
  · rw [hsource]
    exact ⟨t, hpull, rfl⟩

/-- Settles O17: a step is a tick, and a tick's pull and its command each keep the invariant. -/
theorem everyStepKeepsTheInvariant : Obligations.EveryStepKeepsTheInvariant := by
  intro romSize s t hinv hstep
  obtain ⟨b, htick⟩ := (step_eq_next_iff s t).mp hstep
  obtain ⟨b', t', htick', ht'⟩ := hinv.tick
  rw [htick] at htick'
  cases htick'
  exact ht'

/-- Settles O19, operation by operation and by induction on the sequence. -/
theorem everyHostOperationKeepsTheInvariant : Obligations.EveryHostOperationKeepsTheInvariant :=
  fun _ _ hinv => ⟨hinv.perform, hinv.session⟩

/-- Settles O11: a tick halts when its pull is exhausted, and the pull passes a rule exactly when the
rule has no command left. -/
theorem haltedMeansNoCommandIsLeft : Obligations.HaltedMeansNoCommandIsLeft := by
  intro s fs hfs
  rw [tick_halts_iff]
  exact pull_exhausted_iff_noneLeft hfs s.rulePc s.pc

/-- Settles O21: `n` and `cycles` are bytes, and a frame takes at least 3 bytes of the image. -/
theorem thePositionFitsSixteenBits : Obligations.ThePositionFitsSixteenBits := by
  intro romSize s hinv
  obtain ⟨fs, hfs, hle, hpc, hend⟩ := hinv.framed
  have hframe : ∀ f ∈ fs, f.inside s.romLen 0 := frameFrom_inside _ _ hfs
  refine ⟨?_, ?_, fun gs hgs f hf => ?_⟩
  · rcases hle.eq_or_lt with heq | hlt
    · rw [hend heq]
      exact Nat.zero_le _
    · obtain ⟨-, -, hn, hcycles, -⟩ := hframe fs[s.rulePc] (List.getElem_mem hlt)
      calc s.pc ≤ ruleLength fs[s.rulePc] := hpc _ (List.getElem?_eq_getElem hlt)
        _ ≤ 255 * 255 := Nat.mul_le_mul hn hcycles
  · have hcount : 3 * fs.length ≤ s.romLen - 0 := frameFrom_length_le hfs
    omega
  · obtain rfl : fs = gs := Framing.frames.inj (hfs.symm.trans hgs)
    obtain ⟨-, hinside⟩ := hframe f hf
    exact hinside

/-- Settles O22: both listings rise strictly in the order of the cells and list the same cells. -/
theorem equalReadsMeanEqualPictures : Obligations.EqualReadsMeanEqualPictures := by
  intro pb pb' h h' hread
  have hirrefl : Std.Irrefl fun c d : (Nat × Nat) × Bool => cellBefore c.1 d.1 = true :=
    ⟨fun c hc => by simp [cellBefore_irrefl] at hc⟩
  have hantisymm : Std.Antisymm fun c d : (Nat × Nat) × Bool => cellBefore c.1 d.1 = true :=
    ⟨fun c d hcd hdc => absurd (cellBefore_trans hcd hdc) (hirrefl.irrefl c)⟩
  exact h.1.eq_of_mem_iff h'.1 fun c =>
    ⟨PixelBuffer.mem_of_read_eq h h' hread, PixelBuffer.mem_of_read_eq h' h fun p => (hread p).symm⟩

/-- Settles O18. -/
theorem resetMeetsTheInvariant : Obligations.ResetMeetsTheInvariant := inv_reset

/-- Settles O34, by the instruction's command: each toggle writes its own flag, a Move writes the cursor
and the picture, and the rest nothing. -/
theorem eachFlagHasOneWriter : Obligations.EachFlagHasOneWriter := by
  intro i s t hexec
  obtain rfl := eq_applyCommand_of_exec hexec
  cases i <;> simp [Instr.command, applyCommand, flipBy]

end Sys2Proof.Machine
end

section
/-! # Facts about the two memories' addresses (20_memory.md)

Where a Move lands and which cell it stores to, and what the one-command image decodes to and gives the
first pull, each said once. -/

namespace Sys2Proof

/-! ### The one-command image -/

/-- A word of at least 4 bits keeps the four bits that select (30_encoding.md R55). -/
theorem ofNat_mod_two_pow {nbits : Nat} (h : 4 ≤ nbits) (w : Nat) :
    BitVec.ofNat 4 (w % 2 ^ nbits) = BitVec.ofNat 4 w :=
  BitVec.eq_of_toNat_eq <| by
    simpa only [BitVec.toNat_ofNat] using Nat.mod_mod_of_dvd w (Nat.pow_dvd_pow 2 h)

/-- The image of a word is the three bytes of one frame, the opcode in the high nibble of the last. -/
theorem wordImage_eq {nbits : Nat} (h : 4 ≤ nbits) (w : Nat) :
    wordImage nbits w = [1#8, 1#8, joinNibbles (BitVec.ofNat 4 w) 0#4] := by
  rw [wordImage, ofNat_mod_two_pow h]

/-- Count 1 and repeat count 1 before a single byte are one frame that ends with the image
(30_encoding.md R48, R50). -/
theorem frameImage_one_command (b : Byte) :
    frameImage (fun a => [1#8, 1#8, b][a]?) 3 = .frames [⟨0, 1, 1⟩] := rfl

/-- The body of that frame is the byte's high nibble; the low one is never read (30_encoding.md R49). -/
theorem frameRule_one_command (b : Byte) :
    frameRule (fun a => [1#8, 1#8, b][a]?) ⟨0, 1, 1⟩ = some ⟨1, [cmd (highNibble b)]⟩ := rfl

theorem decodeBytes_one_command (b : Byte) :
    decodeBytes [1#8, 1#8, b] = .program [⟨1, [cmd (highNibble b)]⟩] := by
  simp [decodeBytes, decodeImage, frameImage_one_command, frameRule_one_command]

/-- The decoder reads from a word's image the command of the word's low four bits. -/
theorem decodeTableWord_eq {nbits : Nat} (h : 4 ≤ nbits) (w : Nat) :
    decodeTableWord nbits w = some (cmdOfNat w) := by
  simp only [decodeTableWord, wordImage_eq h, decodeBytes_one_command, highNibble_join, cmdOfNat]

namespace Machine

/-- The first pull after the image of a word is placed: the word's command, and `PC` one further. -/
theorem pull_withFetchWord {nbits : Nat} (h : 4 ≤ nbits) (s : State) (w : Nat) :
    (s.withFetchWord nbits w).pull = .command (cmdOfNat w) ((s.withFetchWord nbits w).withPosition 0 1) := by
  rw [State.withFetchWord, wordImage_eq h]
  have hframing := (framing_withImage s _).trans (frameImage_one_command (joinNibbles (BitVec.ofNat 4 w) 0#4))
  obtain ⟨c, hbody, hcmd⟩ := ruleCmd_of_frameRule
    (frameRule_one_command (joinNibbles (BitVec.ofNat 4 w) 0#4)) Nat.one_pos 0
  obtain rfl : cmdOfNat w = c := by simpa [cmdOfNat] using hbody
  exact pull_of_lt hframing rfl Nat.one_pos (by rwa [State.withImage_rom, Memory.read_ofBytes_eq])

/-- A step whose pull names a command is that command's `exec` (40_sequencer.md R72). -/
theorem step_of_pull_command {s t : State} {c : Instr} (h : s.pull = .command c t) : step s = exec c t := by
  simp [step, tick, h, exec_eq_applyCommand, ticked, tickedState]

/-! ### The cell of a Move -/

section
variable (s : State) (dx dy : Delta)

/-- The new column: the mirrored payload's first component, times the horizontal sign (41_move.md R85). -/
theorem moveTarget_fst : (moveTarget s dx dy).1 =
    s.cx + (if s.mirror then deltaInt dy else deltaInt dx) * signInt s.flipX := by
  unfold moveTarget displacement mirrored
  split <;> rfl

/-- The new row: the mirrored payload's second component, times the vertical sign (41_move.md R85). -/
theorem moveTarget_snd : (moveTarget s dx dy).2 =
    s.cy + (if s.mirror then deltaInt dx else deltaInt dy) * signInt s.flipY := by
  unfold moveTarget displacement mirrored
  split <;> rfl

/-- A Move stores to a cell exactly when it draws and its target names the cell (20_memory.md R46). -/
theorem paintedCell_eq_some_iff (p : Nat × Nat) : paintedCell s dx dy = some p ↔
    s.draw = true ∧ cellAt (moveTarget s dx dy) = some p := by
  rw [paintedCell, Option.ite_none_right_eq_some]

end

end Machine
end Sys2Proof
end

section
/-! # The statements of 20_memory.md -/

namespace Sys2Proof.Machine

/-- Settles O46: the image of the word frames as one rule with one command left, so the first pull names
the word's command, and every instruction answers. -/
theorem theFetchWordRunsNext : Obligations.TheFetchWordRunsNext := by
  intro s nbits w hbits
  have hstep := step_of_pull_command (pull_withFetchWord hbits s w)
  exact ⟨decodeTableWord_eq hbits w, hstep, _, hstep.trans (exec_eq_applyCommand _ _)⟩

/-- Settles O24: a position names the cell with its own coordinates, inside the grid. -/
theorem aMoveStoresAtItsNewPositionOnly : Obligations.AMoveStoresAtItsNewPositionOnly := by
  intro s dx dy p
  rw [paintedCell_eq_some_iff, cellAt_eq_some_iff, moveTarget_fst, moveTarget_snd]
  constructor
  · rintro ⟨hdraw, hx, hy, hwidth, hheight⟩
    exact ⟨hdraw, hwidth, hheight, hx.symm, hy.symm⟩
  · rintro ⟨hdraw, hwidth, hheight, hx, hy⟩
    exact ⟨hdraw, hx.symm, hy.symm, hwidth, hheight⟩

end Sys2Proof.Machine
end

section
/-! # Facts about images as byte lists (30_encoding.md)

How an image begins decides how it decodes: with nothing or a zero count, with a frame that the image is
too short for, or with a whole frame before the rest. Each case is one equation of `decodeBytes`, and
`image_induction` is the induction over these cases. -/

namespace Sys2Proof

/-! ### The payload of a frame -/

/-- The commands of a payload's nibbles, high nibble first, the pad of an odd body included
(30_encoding.md R49). -/
def payloadCommands (payload : List Byte) : List Instr :=
  payload.flatMap fun b => [cmd (highNibble b), cmd (lowNibble b)]

@[simp] theorem payloadCommands_nil : payloadCommands [] = [] := rfl

@[simp] theorem payloadCommands_cons (b : Byte) (bs : List Byte) :
    payloadCommands (b :: bs) = cmd (highNibble b) :: cmd (lowNibble b) :: payloadCommands bs := rfl

@[simp] theorem payloadCommands_length (payload : List Byte) :
    (payloadCommands payload).length = 2 * payload.length := by
  induction payload with
  | nil => rfl
  | cons b bs ih => simp only [payloadCommands_cons, List.length_cons, ih]; omega

/-- Command `k` of a payload that stands at address `a` is the one that nibble `k` maps to. -/
theorem nib_map_cmd {read : Nat → Option Byte} {a : Nat} {payload : List Byte} {k : Nat}
    (hread : ∀ j < payload.length, read (a + j) = payload[j]?) (hk : k / 2 < payload.length) :
    (nib read a k).map cmd = (payloadCommands payload)[k]? := by
  induction payload generalizing a k with
  | nil => simp at hk
  | cons b bs ih =>
    have hhead : read a = some b := hread 0 (by simp)
    match k with
    | 0 => simp [nib, hhead]
    | 1 => simp [nib, hhead]
    | k + 2 =>
      have hnext : nib read a (k + 2) = nib read (a + 1) k := by
        simp only [nib, Nat.add_div_right k two_pos, Nat.add_mod_right, Nat.add_assoc, Nat.add_comm 1]
      rw [hnext, ih (fun j hj => ?_) (by simp at hk; omega)]
      · rfl
      · rw [Nat.add_assoc, Nat.add_comm 1, hread (j + 1) (by simpa using hj), List.getElem?_cons_succ]

/-- A frame decodes to the first `n` commands of its payload (30_encoding.md R49, R52). -/
theorem frameRule_of_payload {read : Nat → Option Byte} {f : RuleFrame} {payload : List Byte}
    (hread : ∀ j < payload.length, read (f.base + 2 + j) = payload[j]?)
    (hlen : payload.length = ceil2 f.n) :
    frameRule read f = some ⟨f.cycles, (payloadCommands payload).take f.n⟩ := by
  have hn : f.n ≤ 2 * payload.length := by rw [hlen, ceil2]; omega
  have hbody : frameBody read f = some ((payloadCommands payload).take f.n) := by
    refine (mapM_option_eq_some_iff _ _ _).mpr
      (List.forall₂_iff_get.mpr ⟨by simpa using hn, fun k hk _ => ?_⟩)
    have hlt : k < f.n := by simpa using hk
    have hcmd := nib_map_cmd hread (k := k) (by omega)
    simpa [show k < 2 * payload.length by omega] using hcmd
  simp [frameRule, hbody]

/-- The payload that the assembler writes gives the body back, whatever the pad (30_encoding.md R49, R60). -/
theorem payloadCommands_packBody (pad : Nibble) : ∀ body : List Instr,
    (payloadCommands (packBody pad body)).take body.length = body
  | [] => rfl
  | [c] => by simp [packBody]
  | c :: d :: rest => by simp [packBody, payloadCommands_packBody pad rest]

/-! ### How an image begins -/

/-- The framing of an empty image, or of one whose first count byte is 0 (30_encoding.md R50, cases 1
and 2). -/
theorem frameImage_of_no_frame {bytes : List Byte} (h : bytes = [] ∨ bytes.head? = some 0#8) :
    frameImage (fun a => bytes[a]?) bytes.length = .frames [] := by
  rw [frameImage, frameFrom_eq]
  rcases h with rfl | h
  · rfl
  · obtain ⟨rest, rfl⟩ := List.head?_eq_some_iff.mp h
    simp

theorem decodeBytes_of_no_frame {bytes : List Byte} (h : bytes = [] ∨ bytes.head? = some 0#8) :
    decodeBytes bytes = .program [] := by
  simp [decodeBytes, decodeImage, frameImage_of_no_frame h]

/-- Whether a count byte ends the framing, as a byte and as a number. -/
theorem count_toNat_ne_zero {count : Byte} (h : count ≠ 0#8) : count.toNat ≠ 0 :=
  BitVec.toNat_ne.mp h

/-- An image too short for its first frame is truncated (30_encoding.md R50 case 4). -/
theorem decodeBytes_of_short {count : Byte} {rest : List Byte} (hcount : count ≠ 0#8)
    (hshort : rest.length < 1 + ceil2 count.toNat) :
    decodeBytes (count :: rest) = .truncated (1 + rest.length) := by
  have hframing : frameImage (fun a => (count :: rest)[a]?) (count :: rest).length =
      .truncated (count :: rest).length := by
    have hfit : ¬ 0 + 2 + ceil2 count.toNat ≤ (count :: rest).length := by simp; omega
    rw [frameImage, frameFrom_eq, if_pos (by simp)]
    simp only [List.getElem?_cons_zero, if_neg (count_toNat_ne_zero hcount), if_neg hfit]
  rw [decodeBytes, decodeImage, hframing, List.length_cons, Nat.add_comm]

/-- What a rule in front does to a decoded rest: the rule is put in front of the program, and a
truncated rest is reported with `size` more bytes. -/
def Decoding.cons (r : Rule) (size : Nat) : Decoding → Decoding
  | .program rules => .program (r :: rules)
  | .truncated len => .truncated (size + len)

@[simp] theorem Decoding.cons_program (r : Rule) (size : Nat) (rules : List Rule) :
    Decoding.cons r size (.program rules) = .program (r :: rules) := rfl

@[simp] theorem Decoding.cons_truncated (r : Rule) (size len : Nat) :
    Decoding.cons r size (.truncated len) = .truncated (size + len) := rfl

/-- A decoded program with a rule in front came from a decoded rest. -/
theorem Decoding.cons_eq_program {r : Rule} {size : Nat} {d : Decoding} {rules : List Rule}
    (h : Decoding.cons r size d = .program rules) : ∃ rest, d = .program rest ∧ rules = r :: rest := by
  cases d with
  | program rest => cases h; exact ⟨rest, rfl, rfl⟩
  | truncated len => cases h

section
variable {read read' : Nat → Option Byte} {count cycles : Byte} (hcount : count ≠ 0#8)
  (hfirst : read' 0 = some count) (hsecond : read' 1 = some cycles)
  (hbehind : ∀ a, read' (2 + ceil2 count.toNat + a) = read a)
include hcount hfirst hsecond hbehind

/-- Where the bytes behind a whole first frame are an image of their own, the framing is that frame and
then the image's frames, further up (30_encoding.md R50 case 3, R51). -/
theorem frameImage_of_first_frame (len : Nat) : frameImage read' (2 + ceil2 count.toNat + len) =
    match frameImage read len with
    | .truncated _ => .truncated (2 + ceil2 count.toNat + len)
    | .frames fs => .frames
        (⟨0, count.toNat, cycles.toNat⟩ :: fs.map (RuleFrame.shift (2 + ceil2 count.toNat))) := by
  have hlater := frameFrom_shift hbehind len 0
  rw [Nat.add_zero] at hlater
  rw [frameImage, frameImage, frameFrom_eq, if_pos (by omega)]
  simp only [hfirst, Nat.zero_add, hsecond, if_neg (count_toNat_ne_zero hcount), if_pos (Nat.le_add_right _ _),
    hlater]
  cases frameFrom read len 0 <;> rfl

/-- The first frame's rule is decoded in front of what the bytes behind the frame decode to. -/
theorem decodeImage_of_first_frame {r : Rule}
    (hrule : frameRule read' ⟨0, count.toNat, cycles.toNat⟩ = some r) (len : Nat) :
    decodeImage read' (2 + ceil2 count.toNat + len) =
      .cons r (2 + ceil2 count.toNat) (decodeImage read len) := by
  have hrules (fs : List RuleFrame) :
      (fs.map (RuleFrame.shift (2 + ceil2 count.toNat))).mapM (frameRule read') =
        fs.mapM (frameRule read) := by
    simp only [List.mapM_map, Function.comp_def, frameRule_shift hbehind]
  rw [decodeImage, decodeImage, frameImage_of_first_frame hcount hfirst hsecond hbehind]
  cases h : frameImage read len with
  | truncated l =>
    obtain rfl : l = len := frameFrom_truncated read len h
    rfl
  | frames fs =>
    simp only [List.mapM_cons, hrule, hrules]
    cases fs.mapM (frameRule read) <;> rfl

end

/-- An image that begins with a whole frame decodes to the frame's rule, the first `count` commands of
its payload, in front of what the rest decodes to (30_encoding.md R48 to R50). -/
theorem decodeBytes_of_frame {count : Byte} (cycles : Byte) {payload : List Byte} (rest : List Byte)
    (hcount : count ≠ 0#8) (hlen : payload.length = ceil2 count.toNat) :
    decodeBytes (count :: cycles :: (payload ++ rest)) =
      .cons ⟨cycles.toNat, (payloadCommands payload).take count.toNat⟩ (2 + payload.length)
        (decodeBytes rest) := by
  have hsize : (count :: cycles :: (payload ++ rest)).length = 2 + ceil2 count.toNat + rest.length := by
    simp only [List.length_cons, List.length_append, hlen]
    omega
  rw [decodeBytes, hsize, hlen]
  refine decodeImage_of_first_frame hcount rfl rfl (fun a => ?_) (frameRule_of_payload (fun j hj => ?_) hlen) _
  · rw [← hlen, show 2 + payload.length + a = payload.length + a + 1 + 1 by omega,
      List.getElem?_cons_succ, List.getElem?_cons_succ, List.getElem?_append_right (by omega),
      Nat.add_sub_cancel_left]
  · rw [show 0 + 2 + j = j + 1 + 1 by omega, List.getElem?_cons_succ, List.getElem?_cons_succ,
      List.getElem?_append_left hj]

/-- The induction over the frames of an image (30_encoding.md R50): every byte list begins with no
frame, with a frame it is too short for, or with a whole frame before a shorter list. -/
theorem image_induction {motive : List Byte → Prop}
    (done : ∀ bytes, bytes = [] ∨ bytes.head? = some 0#8 → motive bytes)
    (short : ∀ count rest, count ≠ 0#8 → rest.length < 1 + ceil2 count.toNat → motive (count :: rest))
    (frame : ∀ count cycles payload rest, count ≠ 0#8 → payload.length = ceil2 count.toNat →
      motive rest → motive (count :: cycles :: (payload ++ rest)))
    (bytes : List Byte) : motive bytes := by
  induction hsize : bytes.length using Nat.strong_induction_on generalizing bytes with
  | _ size ih =>
    match bytes with
    | [] => exact done [] (.inl rfl)
    | count :: tail =>
      by_cases hcount : count = 0#8
      · exact done _ (.inr (by simp [hcount]))
      · match tail with
        | [] => exact short count [] hcount (by simp)
        | cycles :: more =>
          by_cases hlen : ceil2 count.toNat ≤ more.length
          · have hrest := ih _ (by simp at hsize ⊢; omega) (more.drop (ceil2 count.toNat)) rfl
            have hframe := frame count cycles (more.take (ceil2 count.toNat)) _ hcount
              (by simpa using hlen) hrest
            rwa [List.take_append_drop] at hframe
          · exact short count _ hcount (by simp; omega)

/-! ### Assembled programs -/

/-- A program is well formed when its first rule and the others are. -/
theorem programWellFormed_cons (r : Rule) (rules : List Rule) :
    programWellFormed (r :: rules) = true ↔ r.wellFormed = true ∧ programWellFormed rules = true := by
  simp [programWellFormed]

theorem assemble_cons (pad : Nibble) (r : Rule) (rules : List Rule) :
    assemble pad (r :: rules) = assembleRule pad r ++ assemble pad rules := rfl

/-- A byte holds the counts of a well-formed rule (30_encoding.md R48). -/
theorem toNat_ofNat_byte {n : Nat} (h : n ≤ 255) : (BitVec.ofNat 8 n).toNat = n := by
  rw [BitVec.toNat_ofNat, Nat.mod_eq_of_lt (by omega)]

/-- The frame of a well-formed rule decodes to that rule in front of what follows (30_encoding.md R60). -/
theorem decodeBytes_assembleRule_append (pad : Nibble) {r : Rule} (h : r.wellFormed = true)
    (bytes : List Byte) :
    decodeBytes (assembleRule pad r ++ bytes) = .cons r (assembleRule pad r).length (decodeBytes bytes) := by
  obtain ⟨hpos, hmax, hcycles⟩ := r.wellFormed_iff.mp h
  have hn : (BitVec.ofNat 8 r.body.length).toNat = r.body.length := toNat_ofNat_byte hmax
  have hcount : BitVec.ofNat 8 r.body.length ≠ 0#8 := fun h0 => by
    rw [h0] at hn
    simp at hn
    omega
  have hframe := decodeBytes_of_frame (BitVec.ofNat 8 r.cycles) bytes hcount
    ((packBody_length pad r.body).trans (congrArg ceil2 hn.symm))
  rw [hn, payloadCommands_packBody, toNat_ofNat_byte hcycles, packBody_length,
    ← assembleRule_length pad] at hframe
  exact hframe

/-- Well-formed rules are decoded in front of a tail without frames, one after the other. -/
theorem decodeBytes_assemble_append (pad : Nibble) {rules : List Rule} (h : programWellFormed rules = true)
    {tail : List Byte} (htail : tail = [] ∨ tail.head? = some 0#8) :
    decodeBytes (assemble pad rules ++ tail) = .program rules := by
  induction rules with
  | nil => exact decodeBytes_of_no_frame htail
  | cons r rules ih =>
    obtain ⟨hr, hrules⟩ := (programWellFormed_cons r rules).mp h
    rw [assemble_cons, List.append_assoc, decodeBytes_assembleRule_append pad hr, ih hrules,
      Decoding.cons_program]

/-- The rule of a frame is well formed (30_encoding.md R48, R52). -/
theorem wellFormed_of_frame {count : Byte} (cycles : Byte) {body : List Instr} (hcount : count ≠ 0#8)
    (hbody : body.length = count.toNat) : (Rule.mk cycles.toNat body).wellFormed = true := by
  have hn := count_toNat_ne_zero hcount
  have hmax := count.isLt
  have hlow : 1 ≤ body.length := by omega
  have hhigh : body.length ≤ 255 := by omega
  exact (Rule.wellFormed_iff _).mpr ⟨hlow, hhigh, Nat.le_of_lt_succ cycles.isLt⟩

/-- What decodes is a well-formed program of at least 3 bytes a rule, and no other image of it is
shorter (30_encoding.md R48, R51). -/
theorem decodeBytes_program {bytes : List Byte} {rules : List Rule} (h : decodeBytes bytes = .program rules) :
    programWellFormed rules = true ∧ 3 * rules.length ≤ bytes.length ∧
      ∀ pad : Nibble, (assemble pad rules).length ≤ bytes.length := by
  induction bytes using image_induction generalizing rules with
  | done bytes hnone =>
    rw [decodeBytes_of_no_frame hnone] at h
    cases h
    exact ⟨rfl, Nat.zero_le _, fun _ => Nat.zero_le _⟩
  | short count rest hcount hshort =>
    rw [decodeBytes_of_short hcount hshort] at h
    cases h
  | frame count cycles payload rest hcount hlen ih =>
    rw [decodeBytes_of_frame cycles rest hcount hlen] at h
    obtain ⟨later, hlater, rfl⟩ := Decoding.cons_eq_program h
    obtain ⟨hwf, hrules, hsize⟩ := ih hlater
    have hn := count_toNat_ne_zero hcount
    have hbody : ((payloadCommands payload).take count.toNat).length = count.toNat := by
      rw [List.length_take, payloadCommands_length, hlen, ceil2]
      omega
    refine ⟨(programWellFormed_cons _ _).mpr ⟨wellFormed_of_frame cycles hcount hbody, hwf⟩, ?_, fun pad => ?_⟩
    · have hpayload : 1 ≤ payload.length := by rw [hlen, ceil2]; omega
      simp only [List.length_cons, List.length_append]
      omega
    · have hpad := hsize pad
      simp only [assemble_cons, List.length_append, assembleRule_length, hbody, List.length_cons, hlen]
      omega

/-! ### The opcode table -/

/-- The row of R54's table for an opcode. -/
def opcodeRow (op : Nibble) : Nibble × Instr × Command := (op, cmd op, (cmd op).command)

/-- Four bits of a number are its remainder by 16 (30_encoding.md R55). -/
theorem cmdOfNat_mod (v : Nat) : cmdOfNat (v % 16) = cmdOfNat v :=
  congrArg cmd (ofNat_mod_two_pow (nbits := 4) le_rfl v)

namespace Machine

/-! ### Loading -/

/-- An image that fits and frames is loaded (40_sequencer.md R76). -/
theorem loadRom_of_frames {romSize : Option Nat} {bytes : List Byte} {fs : List RuleFrame}
    (hfits : fits romSize bytes.length) (hfs : frameImage (fun a => bytes[a]?) bytes.length = .frames fs)
    (s : State) : loadRom romSize bytes s = .next (s.withImage bytes) := by
  simp only [loadRom, (overLong_eq_none_iff _ _).mpr hfits, hfs]

theorem sameDrawing_withImage (s : State) (bytes : List Byte) : sameDrawing s (s.withImage bytes) :=
  ⟨rfl, rfl, rfl, rfl, rfl, rfl, rfl, rfl⟩

/-- A tick past the last rule halts and moves nothing (40_sequencer.md R74). -/
theorem tick_of_length_le {s : State} {fs : List RuleFrame} (h : s.framing = .frames fs)
    (hr : fs.length ≤ s.rulePc) : tick s = .next ⟨true, s⟩ := by
  simp only [tick, pull_of_length_le h hr]

end Machine
end Sys2Proof
end

section
/-! # The statements of 30_encoding.md -/

namespace Sys2Proof.Machine

/-- Settles O4, by induction on the rules: each frame is decoded in front of what follows it, and the
tail holds no frame. -/
theorem decodingAnAssembledProgramGivesItBack : Obligations.DecodingAnAssembledProgramGivesItBack :=
  fun pad _ _ hrules htail => decodeBytes_assemble_append pad hrules htail

/-- Settles O3, case by case of how an image begins. -/
theorem decodingFollowsTheGrammar : Obligations.DecodingFollowsTheGrammar := by
  refine ⟨decodeBytes_of_no_frame (.inl rfl), fun _ => decodeBytes_of_no_frame (.inr rfl),
    fun count cycles payload rest hcount hlen => ?_, fun _ _ => decodeBytes_of_short⟩
  rw [decodeBytes_of_frame cycles rest hcount hlen]
  cases decodeBytes rest <;> rfl

/-- Settles O5, by induction on the frames of the image. -/
theorem decodedRulesAreWellFormed : Obligations.DecodedRulesAreWellFormed := by
  intro bytes rules h
  obtain ⟨hwf, hcount, hsize⟩ := decodeBytes_program h
  exact ⟨hwf, by omega, hsize⟩

/-- Settles O43: the image frames as no rules, so it is loaded and the position 0 is past the last rule. -/
theorem anImageWithoutRulesHaltsAtOnce : Obligations.AnImageWithoutRulesHaltsAtOnce := by
  intro romSize bytes s hfits hnone
  have hframing := frameImage_of_no_frame hnone
  exact ⟨s.withImage bytes, loadRom_of_frames hfits hframing s, sameDrawing_withImage s bytes,
    tick_of_length_le ((framing_withImage s bytes).trans hframing) (Nat.zero_le _)⟩

/-- Settles O1: the 16 rows are those of the opcodes in order, and `encode` inverts `cmd`. -/
theorem opcodeTableMapsEachValue : Obligations.OpcodeTableMapsEachValue := by
  unfold Obligations.OpcodeTableMapsEachValue
  intro rows
  have hrows : rows = (List.finRange 16).map fun k => opcodeRow (BitVec.ofFin k) := by decide
  have hmem : ∀ op : Nibble, opcodeRow op ∈ rows := fun op => by
    rw [hrows]
    exact List.mem_map_of_mem (List.mem_finRange op.toFin)
  refine ⟨fun row hrow => ?_, fun op => ⟨_, hmem op, rfl⟩, fun i => ⟨_, hmem (encode i), cmd_encode i⟩⟩
  rw [hrows] at hrow
  obtain ⟨k, -, rfl⟩ := List.mem_map.mp hrow
  exact ⟨rfl, rfl, encode_cmd _⟩

/-- Settles O2. -/
theorem onlyTheLowFourBitsSelect : Obligations.OnlyTheLowFourBitsSelect := by
  intro v
  refine ⟨(cmdOfNat_mod v).symm, ?_⟩
  rw [cmdOfNat, encode_cmd, BitVec.toNat_ofNat]

end Sys2Proof.Machine
end

section
/-! # Facts about the sequencer (40_sequencer.md)

Where the element of `Seq` at a decode position stands, what one pull and one tick do beside `Seq`, and
what `load_rom` accepts, each said once. -/

namespace Sys2Proof.Machine

/-! ### The command sequence of a rule and of a program -/

@[simp] theorem ruleCommands_length (r : Rule) : (ruleCommands r).length = r.body.length * r.cycles := by
  simp [ruleCommands, Nat.mul_comm]

/-- A body laid end to end with itself is read round and round (40_sequencer.md R67, R68). -/
theorem getElem?_flatten_replicate {α : Type} (body : List α) {k p : Nat} (h : p < body.length * k) :
    (List.replicate k body).flatten[p]? = body[p % body.length]? := by
  induction k generalizing p with
  | zero => simp at h
  | succ k ih =>
    rw [List.replicate_succ, List.flatten_cons]
    by_cases hp : p < body.length
    · rw [List.getElem?_append_left hp, Nat.mod_eq_of_lt hp]
    · have hle : body.length ≤ p := Nat.not_lt.mp hp
      rw [Nat.mul_succ] at h
      rw [List.getElem?_append_right hle, ih (by omega), ← Nat.mod_eq_sub_mod hle]

theorem getElem?_ruleCommands {r : Rule} {p : Nat} (h : p < r.body.length * r.cycles) :
    (ruleCommands r)[p]? = r.body[p % r.body.length]? :=
  getElem?_flatten_replicate r.body h

/-- The count and the repeat count of a well-formed rule are bytes (40_sequencer.md R83). -/
theorem ruleCommands_length_le {r : Rule} (h : r.wellFormed = true) : (ruleCommands r).length ≤ 65025 := by
  obtain ⟨-, hn, hcycles⟩ := r.wellFormed_iff.mp h
  rw [ruleCommands_length]
  exact Nat.mul_le_mul hn hcycles

@[simp] theorem commandSeq_nil : commandSeq [] = [] := rfl

@[simp] theorem commandSeq_cons (r : Rule) (rules : List Rule) :
    commandSeq (r :: rules) = ruleCommands r ++ commandSeq rules := rfl

@[simp] theorem totalCommands_nil : totalCommands [] = 0 := rfl

@[simp] theorem totalCommands_cons (r : Rule) (rules : List Rule) :
    totalCommands (r :: rules) = r.body.length * r.cycles + totalCommands rules := rfl

/-- `Seq` has `TOTAL` elements (40_sequencer.md R71). -/
@[simp] theorem commandSeq_length (rules : List Rule) : (commandSeq rules).length = totalCommands rules := by
  induction rules with
  | nil => rfl
  | cons r rules ih => simp [ih]

/-- Each rule of a well-formed program adds at most 255 * 255 commands (40_sequencer.md R83). -/
theorem totalCommands_le {rules : List Rule} (h : programWellFormed rules = true) :
    totalCommands rules ≤ rules.length * 65025 := by
  induction rules with
  | nil => exact Nat.zero_le _
  | cons r rules ih =>
    obtain ⟨hr, hrules⟩ := (programWellFormed_cons r rules).mp h
    have hfirst := ruleCommands_length_le hr
    have hlater := ih hrules
    rw [ruleCommands_length] at hfirst
    rw [totalCommands_cons, List.length_cons]
    omega

/-- Passing a rule passes all of its commands. -/
theorem totalCommands_take_succ {rules : List Rule} {k : Nat} {r : Rule} (hr : rules[k]? = some r) :
    totalCommands (rules.take (k + 1)) = totalCommands (rules.take k) + r.body.length * r.cycles := by
  simp [totalCommands, List.take_add_one, hr]

/-- The command at position `p` of rule `k` stands in `Seq` behind the commands of the rules before it
(40_sequencer.md R71). -/
theorem getElem?_commandSeq {rules : List Rule} {k p : Nat} {r : Rule} (hr : rules[k]? = some r)
    (hp : p < r.body.length * r.cycles) :
    (commandSeq rules)[totalCommands (rules.take k) + p]? = r.body[p % r.body.length]? := by
  induction rules generalizing k with
  | nil => simp at hr
  | cons r' rules ih =>
    rw [commandSeq_cons]
    cases k with
    | zero =>
      obtain rfl : r' = r := by simpa using hr
      rw [List.take_zero, totalCommands_nil, Nat.zero_add,
        List.getElem?_append_left (by rwa [ruleCommands_length]), getElem?_ruleCommands hp]
    | succ k =>
      rw [List.take_succ_cons, totalCommands_cons, Nat.add_assoc, ← ruleCommands_length,
        List.getElem?_append_right (Nat.le_add_right _ _), Nat.add_sub_cancel_left]
      exact ih (by simpa using hr)

/-! ### The index of a decode position -/

@[simp] theorem seqIndex_withPosition (rules : List Rule) (s : State) (k p : Nat) :
    seqIndex rules (s.withPosition k p) = totalCommands (rules.take k) + p := rfl

/-- The end of the program stands at index `TOTAL`. -/
theorem seqIndex_at_end (rules : List Rule) (s : State) :
    seqIndex rules (s.withPosition rules.length 0) = totalCommands rules := by simp

/-- Where `Seq` has an element, it is the first command left. -/
theorem remaining_eq_cons {rules : List Rule} {s t : State} {c : Instr}
    (hc : (commandSeq rules)[seqIndex rules s]? = some c) (ht : seqIndex rules t = seqIndex rules s + 1) :
    remaining rules s = c :: remaining rules t := by
  obtain ⟨hlt, rfl⟩ := List.getElem?_eq_some_iff.mp hc
  rw [remaining, remaining, ht, List.drop_eq_getElem_cons hlt]

theorem remaining_eq_nil {rules : List Rule} {s : State} (h : seqIndex rules s = totalCommands rules) :
    remaining rules s = [] := by
  rw [remaining, h, ← commandSeq_length, List.drop_length]

/-- At the start of the program the whole sequence is left. -/
theorem remaining_at_start (rules : List Rule) {s : State} (hrule : s.rulePc = 0) (hpc : s.pc = 0) :
    remaining rules s = commandSeq rules := by
  simp [remaining, seqIndex, hrule, hpc]

/-! ### One pull -/

theorem sameDrawing_withPosition (s : State) (r p : Nat) : sameDrawing s (s.withPosition r p) :=
  ⟨rfl, rfl, rfl, rfl, rfl, rfl, rfl, rfl⟩

theorem sameImage_withPosition (s : State) (r p : Nat) : sameImage s (s.withPosition r p) := ⟨rfl, rfl⟩

/-- `Next()` at a nibble whose byte the ROM lacks (log 15). -/
theorem pull_unreadable_of_lt {s : State} {fs : List RuleFrame} {f : RuleFrame}
    (h : s.framing = .frames fs) (hf : fs[s.rulePc]? = some f) (hp : s.pc < ruleLength f)
    (hc : ruleCmd (Memory.read s.rom) f s.pc = none) : s.pull = .unreadable := by
  obtain ⟨hr, rfl⟩ := List.getElem?_eq_some_iff.mp hf
  simp only [State.pull, h, List.drop_eq_getElem_cons hr, seek, if_pos hp, hc]

/-- The nibble that `Next()` reads is one half of the byte it stands in (30_encoding.md R49). -/
theorem ruleCmd_of_read {read : Nat → Option Byte} {f : RuleFrame} {p : Nat} {b : Byte}
    (h : read (f.base + 2 + p % f.n / 2) = some b) :
    ruleCmd read f p = some (cmd (if p % f.n % 2 = 0 then highNibble b else lowNibble b)) := by
  simp only [ruleCmd, nib, h, Option.map_some]

/-- Where an exhausted pull leaves the decode position: past the last rule, and at `PC = 0` when it
passed any (40_sequencer.md R70). -/
theorem pull_exhausted_position {s t : State} {fs : List RuleFrame} (hfs : s.framing = .frames fs)
    (h : s.pull = .exhausted t) :
    t.rulePc = s.rulePc + (fs.length - s.rulePc) ∧ (s.rulePc < fs.length → t.pc = 0) := by
  obtain ⟨gs, r, p, hgs, hseek, rfl⟩ := pull_exhausted h
  obtain rfl : fs = gs := Framing.frames.inj (hfs.symm.trans hgs)
  obtain ⟨hr, hp, -⟩ := seek_none hseek
  rw [List.length_drop] at hr
  exact ⟨hr, fun hlt => by simpa [List.drop_eq_nil_iff, Nat.not_le.mpr hlt] using hp⟩

/-- From a position in the frames of a decoded image, a pull gives the element of `Seq` at the
position's index and leaves the next index, or the index is `TOTAL` and the pull ends at the end of the
program (40_sequencer.md R71). -/
theorem pull_follows_commandSeq_from {s : State} {fs : List RuleFrame} {rules : List Rule}
    (hfs : s.framing = .frames fs)
    (hrel : List.Forall₂ (fun f r => frameRule (Memory.read s.rom) f = some r) fs rules) (k p : Nat)
    (hpos : positionIn fs k p) :
    (∃ c r q, (commandSeq rules)[seqIndex rules (s.withPosition k p)]? = some c ∧
      (s.withPosition k p).pull = .command c (s.withPosition r q) ∧
      seqIndex rules (s.withPosition r q) = seqIndex rules (s.withPosition k p) + 1) ∨
    seqIndex rules (s.withPosition k p) = totalCommands rules ∧
      (s.withPosition k p).pull = .exhausted (s.withPosition rules.length 0) := by
  induction k, p using position_induction (fs := fs) with
  | past k p hk =>
    obtain ⟨hle, -, hend⟩ := hpos
    obtain rfl : k = fs.length := hle.antisymm hk
    obtain rfl : p = 0 := hend rfl
    rw [hrel.length_eq] at hk ⊢
    exact .inr ⟨seqIndex_at_end rules s, pull_of_length_le hfs (hrel.length_eq ▸ le_rfl)⟩
  | left k p f hf hp =>
    obtain ⟨r, hr, hrule⟩ := getElem?_rule_of_frame hrel hf
    obtain ⟨hcycles, hlen, -⟩ := frameRule_eq_some hrule
    have hn : 0 < f.n := Nat.pos_of_mul_pos_right (Nat.zero_lt_of_lt hp)
    obtain ⟨c, hbody, hcmd⟩ := ruleCmd_of_frameRule hrule hn p
    have hlt : p < r.body.length * r.cycles := by rwa [hlen, hcycles]
    refine .inl ⟨c, k, p + 1, ?_, pull_of_lt hfs hf hp hcmd, rfl⟩
    rw [seqIndex_withPosition, getElem?_commandSeq hr hlt, hlen, hbody]
  | pass k p f hf hp ih =>
    obtain ⟨r, hr, hrule⟩ := getElem?_rule_of_frame hrel hf
    obtain ⟨hcycles, hlen, -⟩ := frameRule_eq_some hrule
    obtain ⟨-, hinside, -⟩ := hpos
    have hend : p = r.body.length * r.cycles := by
      rw [hlen, hcycles]
      exact (hinside f hf).antisymm hp
    have hindex : seqIndex rules (s.withPosition k p) = seqIndex rules (s.withPosition (k + 1) 0) := by
      simp [totalCommands_take_succ hr, hend]
    have hpull : (s.withPosition k p).pull = (s.withPosition (k + 1) 0).pull := pull_of_le hfs hf hp
    obtain ⟨hk, -⟩ := List.getElem?_eq_some_iff.mp hf
    rw [hpull, hindex]
    exact ih (positionIn_zero hk)

/-- What a pull does beside `Seq` in a sound state. -/
theorem pull_follows_commandSeq {romSize : Option Nat} {s : State} {rules : List Rule}
    (h : s.Inv romSize) (hdec : s.decoding = .program rules) :
    (∃ c r q, (commandSeq rules)[seqIndex rules s]? = some c ∧ s.pull = .command c (s.withPosition r q) ∧
      seqIndex rules (s.withPosition r q) = seqIndex rules s + 1) ∨
    seqIndex rules s = totalCommands rules ∧ s.pull = .exhausted (s.withPosition rules.length 0) := by
  obtain ⟨fs, hfs, hpos⟩ := h.framed
  obtain ⟨gs, hgs, hrel⟩ := decodeImage_program hdec
  obtain rfl : fs = gs := Framing.frames.inj (hfs.symm.trans hgs)
  exact pull_follows_commandSeq_from hfs hrel s.rulePc s.pc hpos

/-! ### One tick -/

/-- A tick whose pull names a command applies it and reports `halted = 0` (40_sequencer.md R72). -/
theorem tick_of_pull_command {s t : State} {c : Instr} (h : s.pull = .command c t) :
    tick s = .next ⟨false, applyCommand c.command t⟩ := by
  simp only [tick, h, exec_eq_applyCommand, ticked]

theorem tick_of_pull_exhausted {s t : State} (h : s.pull = .exhausted t) : tick s = .next ⟨true, t⟩ := by
  simp only [tick, h]

/-- Only an exhausted pull makes a tick report `halted = 1`. -/
theorem pull_of_tick_halted {s t : State} (h : tick s = .next ⟨true, t⟩) : s.pull = .exhausted t := by
  obtain ⟨t', hpull⟩ := (tick_halts_iff s).mp ⟨t, h⟩
  rw [tick_of_pull_exhausted hpull] at h
  cases h
  exact hpull

/-- Halting lasts: the tick after a halting one halts and moves nothing (40_sequencer.md R74). -/
theorem tick_of_tick_halted {s t : State} (h : tick s = .next ⟨true, t⟩) : tick t = .next ⟨true, t⟩ := by
  have hpull := pull_of_tick_halted h
  obtain ⟨fs, r, p, hfs, -, rfl⟩ := pull_exhausted hpull
  obtain ⟨hend, -⟩ := pull_exhausted_position hfs hpull
  exact tick_of_length_le hfs (by omega)

/-- A machine whose tick answers accepts every operation of the host. -/
theorem perform_answers_of_tick {s : State} {x : Ticked} (h : tick s = .next x) (romSize : Option Nat)
    (op : HostOp) : ∃ r u, perform romSize op s = .next (r, u) := by
  cases op with
  | loadRom bytes =>
    rw [perform]
    rcases loadRom_cases romSize bytes s with ⟨a, -, hload⟩ | ⟨-, -, hload⟩ | ⟨fs, -, -, hload⟩
    · exact ⟨_, s, by rw [hload, loadResult_fault]⟩
    · exact ⟨_, s, by rw [hload, loadResult_fault]⟩
    · exact ⟨_, _, by rw [hload, loadResult_next]⟩
  | tick => exact ⟨.halted x.halted, x.state, by simp only [perform, h, tickResult]⟩
  | reset | cursor | pixelBuffer => exact ⟨_, _, rfl⟩

/-! ### A run of commands -/

/-- No command reads or writes the decode position (10_state.md R27). -/
theorem applyCommand_withPosition (c : Command) (s : State) (r p : Nat) :
    applyCommand c (s.withPosition r p) = (applyCommand c s).withPosition r p := by
  cases c with
  | move dx dy =>
    have hcell : paintedCell (s.withPosition r p) dx dy = paintedCell s dx dy := rfl
    rw [applyCommand, applyCommand, moveBy, moveBy, hcell]
    cases paintedCell s dx dy <;> rfl
  | pushPop | flip | mirror | color | draw | scale => rfl

/-- The state after a list of commands, each applied by `applyCommand`. -/
def applyAll (l : List Instr) (s : State) : State := l.foldl (fun t i => applyCommand i.command t) s

@[simp] theorem applyAll_nil (s : State) : applyAll [] s = s := rfl

@[simp] theorem applyAll_cons (i : Instr) (l : List Instr) (s : State) :
    applyAll (i :: l) s = applyAll l (applyCommand i.command s) := rfl

/-- `execAll` answers in every state, and `applyAll` is its answer. -/
theorem execAll_eq_applyAll (l : List Instr) (s : State) : execAll l s = .next (applyAll l s) := by
  induction l generalizing s with
  | nil => rfl
  | cons i l ih => simp only [execAll, exec_eq_applyCommand, ih, applyAll_cons]

theorem applyAll_withPosition (l : List Instr) (s : State) (r p : Nat) :
    applyAll l (s.withPosition r p) = (applyAll l s).withPosition r p := by
  induction l generalizing s with
  | nil => rfl
  | cons i l ih => rw [applyAll_cons, applyAll_cons, applyCommand_withPosition, ih]

theorem sameImage_applyAll (l : List Instr) (s : State) : sameImage s (applyAll l s) := by
  induction l generalizing s with
  | nil => exact ⟨rfl, rfl⟩
  | cons i l ih =>
    obtain ⟨hrom, hlen⟩ := ih (applyCommand i.command s)
    exact ⟨hrom.trans (applyCommand_rom _ _), hlen.trans (applyCommand_romLen _ _)⟩

theorem decoding_applyCommand (c : Command) (s : State) : (applyCommand c s).decoding = s.decoding := by
  simp only [State.decoding, applyCommand_rom, applyCommand_romLen]

/-- What a tick does beside `Seq` in a sound state: it applies the first command left, or it halts at
the end of the program (40_sequencer.md R72, R75). -/
theorem tick_follows_remaining {romSize : Option Nat} {s : State} {rules : List Rule}
    (h : s.Inv romSize) (hdec : s.decoding = .program rules) :
    (∃ c r q, tick s = .next ⟨false, (applyCommand c.command s).withPosition r q⟩ ∧
      remaining rules s =
        c :: remaining rules ((applyCommand c.command s).withPosition r q)) ∨
    remaining rules s = [] ∧ tick s = .next ⟨true, s.withPosition rules.length 0⟩ := by
  rcases pull_follows_commandSeq h hdec with ⟨c, r, q, hc, hpull, hindex⟩ | ⟨hindex, hpull⟩
  · refine .inl ⟨c, r, q, ?_, remaining_eq_cons hc hindex⟩
    rw [tick_of_pull_command hpull, applyCommand_withPosition]
  · exact .inr ⟨remaining_eq_nil hindex, tick_of_pull_exhausted hpull⟩

/-- As many ticks as a sound state has commands left apply these commands and report `halted = 0` each,
and the tick after them halts at the end of the program (40_sequencer.md R75). -/
theorem ticks_apply_remaining {romSize : Option Nat} {s : State} {rules : List Rule}
    {l : List Instr} (h : s.Inv romSize) (hdec : s.decoding = .program rules)
    (hl : remaining rules s = l) :
    ∃ r q, session romSize (List.replicate l.length .tick) s =
        .next (List.replicate l.length (.halted false), (applyAll l s).withPosition r q) ∧
      Host.Core.run Sys2Proof.core l.length s = .next ((applyAll l s).withPosition r q) ∧
      tick ((applyAll l s).withPosition r q) =
        .next ⟨true, (applyAll l s).withPosition rules.length 0⟩ := by
  induction l generalizing s with
  | nil =>
    rcases tick_follows_remaining h hdec with ⟨c, r, q, -, hrem⟩ | ⟨-, hhalt⟩
    · rw [hl] at hrem
      cases hrem
    · exact ⟨s.rulePc, s.pc, rfl, rfl, hhalt⟩
  | cons i l ih =>
    rcases tick_follows_remaining h hdec with ⟨c, r, q, htick, hrem⟩ | ⟨hrem, -⟩
    · rw [hl] at hrem
      obtain ⟨rfl, hrest⟩ := List.cons.inj hrem
      obtain ⟨b, t, htick', hinv⟩ := h.tick
      rw [htick] at htick'
      cases htick'
      obtain ⟨r', q', hsession, hrun, hhalt⟩ :=
        ih hinv ((decoding_applyCommand i.command s).trans hdec) hrest.symm
      have hstep : Host.Core.step Sys2Proof.core s =
          .next ((applyCommand i.command s).withPosition r q) :=
        (step_eq_next_iff s _).mpr ⟨false, htick⟩
      rw [applyAll_withPosition, State.withPosition_withPosition] at hsession hrun hhalt
      refine ⟨r', q', ?_, ?_, hhalt⟩
      · simp only [List.length_cons, List.replicate_succ, session, perform, htick,
          tickResult, hsession, applyAll_cons]
      · simp only [List.length_cons, Host.Core.run, hstep, hrun, applyAll_cons]
    · rw [hl] at hrem
      cases hrem

/-! ### Loading -/

/-- Every byte of a byte list is readable, so the list decodes exactly when it frames. -/
theorem decodeBytes_program_iff_frames (bytes : List Byte) :
    (∃ rules, decodeBytes bytes = .program rules) ↔
      ∃ fs, frameImage (fun a => bytes[a]?) bytes.length = .frames fs := by
  constructor
  · rintro ⟨rules, h⟩
    obtain ⟨fs, hfs, -⟩ := decodeImage_program h
    exact ⟨fs, hfs⟩
  · rintro ⟨fs, hfs⟩
    obtain ⟨rules, hrules, -⟩ := decodeImage_of_frames (fun a ha => by simpa using ha) hfs
    exact ⟨rules, hrules⟩

/-- `load_rom` answers exactly for an image that fits and decodes, and then it writes the image
(40_sequencer.md R76). -/
theorem loadRom_eq_next_iff (romSize : Option Nat) (bytes : List Byte) (s t : State) :
    loadRom romSize bytes s = .next t ↔
      fits romSize bytes.length ∧ (∃ rules, decodeBytes bytes = .program rules) ∧ t = s.withImage bytes := by
  rw [decodeBytes_program_iff_frames]
  constructor
  · intro h
    rcases loadRom_cases romSize bytes s with ⟨a, -, hload⟩ | ⟨-, -, hload⟩ | ⟨fs, hfits, hfs, hload⟩
    · rw [hload] at h; cases h
    · rw [hload] at h; cases h
    · rw [hload] at h
      cases h
      exact ⟨(overLong_eq_none_iff _ _).mp hfits, ⟨fs, hfs⟩, rfl⟩
  · rintro ⟨hfits, ⟨fs, hfs⟩, rfl⟩
    exact loadRom_of_frames hfits hfs s

/-! ### The picture as the host reads it -/

/-- Column `x` of the returned grid (40_sequencer.md R79). -/
theorem getElem?_pixelBuffer (s : State) {x : Nat} (hx : x < Config.width) :
    s.pixelBuffer[x]? = some ((List.range Config.height).map fun y => PixelBuffer.read s.pb (x, y)) := by
  simp [State.pixelBuffer, hx]

end Sys2Proof.Machine
end

section
/-! # The statements of 40_sequencer.md -/

namespace Sys2Proof.Machine

/-- Settles O14, by the induction that follows `Next()` over the rules: the index in `Seq` counts the
commands of the rules passed and stays the same when an exhausted rule is passed. -/
theorem pullsFollowTheCommandSequence : Obligations.PullsFollowTheCommandSequence := by
  intro romSize s rules hinv hdec
  rcases pull_follows_commandSeq hinv hdec with ⟨c, r, q, hc, hpull, hindex⟩ | ⟨hindex, hpull⟩
  · rw [hc]
    refine ⟨fun d hd => ?_, nofun⟩
    cases hd
    exact ⟨_, hpull, hindex, sameDrawing_withPosition s r q, sameImage_withPosition s r q⟩
  · have hnone : (commandSeq rules)[seqIndex rules s]? = none := by simp [hindex]
    rw [hnone]
    exact ⟨nofun, fun _ => ⟨hindex, _, hpull, seqIndex_at_end rules s, rfl, rfl,
      sameDrawing_withPosition s _ _, sameImage_withPosition s _ _⟩⟩

/-- Settles O16, by induction on the commands left: each tick applies the first of them, and commands
neither read nor write the decode position. -/
theorem aRunAppliesTheWholeSequenceAndHalts : Obligations.ARunAppliesTheWholeSequenceAndHalts := by
  intro romSize s rules hinv hdec
  obtain ⟨r, q, hsession, hrun, hhalt⟩ := ticks_apply_remaining hinv hdec rfl
  refine ⟨_, _, (applyAll (remaining rules s) s).withPosition rules.length 0, execAll_eq_applyAll _ s,
    hsession, hrun, sameDrawing_withPosition _ r q, sameImage_applyAll _ s, ?_, rfl, rfl, ?_⟩
  · rw [perform, hhalt, tickResult]
  · exact sameDrawing_withPosition ((applyAll (remaining rules s) s).withPosition r q) _ _

/-- Settles O7, branch by branch of the loop. -/
theorem nextPullsAsTheLoopSays : Obligations.NextPullsAsTheLoopSays := by
  intro s fs hfs
  refine ⟨pull_of_length_le hfs, fun f hf hp => ?_, fun f hf hp => pull_of_le hfs hf hp⟩
  cases hc : (nib (Memory.read s.rom) (f.base + 2) (s.pc % f.n)).map cmd with
  | some c => exact pull_of_lt hfs hf hp hc
  | none => exact pull_unreadable_of_lt hfs hf hp hc

/-- Settles O10: a halting tick's pull is exhausted, which moves the decode position past the last rule,
and from there a tick halts and moves nothing. -/
theorem aHaltingTickChangesNothingTheHostSees : Obligations.AHaltingTickChangesNothingTheHostSees := by
  refine ⟨fun s t htick => ?_,
    fun romSize s t htick => perform_answers_of_tick (tick_of_tick_halted htick) romSize,
    fun s fs => tick_of_length_le⟩
  have hpull := pull_of_tick_halted htick
  have hposition (fs : List RuleFrame) (hfs : s.framing = .frames fs) (hle : s.rulePc ≤ fs.length) :
      t.rulePc = fs.length ∧ (s.rulePc < fs.length → t.pc = 0) := by
    obtain ⟨hend, hpc⟩ := pull_exhausted_position hfs hpull
    exact ⟨by omega, hpc⟩
  obtain ⟨-, r, p, -, -, rfl⟩ := pull_exhausted hpull
  exact ⟨sameDrawing_withPosition s r p, sameImage_withPosition s r p, rfl, rfl, tick_of_tick_halted htick,
    hposition⟩

/-- Settles O12, by induction on the repeat count. -/
theorem aRuleRepeatsItsBodyRoundRobin : Obligations.ARuleRepeatsItsBodyRoundRobin :=
  fun r => ⟨ruleCommands_length r, fun _ => getElem?_ruleCommands, ruleCommands_length_le⟩

/-- Settles O13: a rule takes at least 3 bytes of the image and yields at most 255 * 255 commands. -/
theorem everyProgramIsFinite : Obligations.EveryProgramIsFinite := by
  intro bytes rules hdec
  obtain ⟨hwf, hcount, -⟩ := decodeBytes_program hdec
  refine ⟨commandSeq_length rules, ?_⟩
  calc totalCommands rules ≤ rules.length * 65025 := totalCommands_le hwf
    _ ≤ bytes.length / 3 * 65025 := Nat.mul_le_mul_right _ (by omega)

/-- Settles O36. -/
theorem loadRomAcceptsExactlyWhatFitsAndFrames : Obligations.LoadRomAcceptsExactlyWhatFitsAndFrames := by
  intro romSize bytes s
  constructor
  · simp only [loadRom_eq_next_iff, exists_and_left, exists_eq, and_true]
  · rcases loadRom_cases romSize bytes s with ⟨a, -, hload⟩ | ⟨-, -, hload⟩ | ⟨fs, -, -, hload⟩
    · exact .inr ⟨a, hload⟩
    · exact .inr ⟨_, hload⟩
    · exact .inl ⟨_, hload⟩

/-- Settles O37: a load that answers has written the image, which reads back byte for byte. -/
theorem loadRomReplacesTheProgramOnly : Obligations.LoadRomReplacesTheProgramOnly := by
  intro romSize bytes s t hload
  obtain ⟨-, ⟨rules, hdec⟩, rfl⟩ := (loadRom_eq_next_iff romSize bytes s t).mp hload
  exact ⟨Memory.read_ofBytes bytes, rfl, rfl, rfl, sameDrawing_withImage s bytes, rules, hdec,
    (decoding_withImage s bytes).trans hdec, remaining_at_start rules rfl rfl⟩

/-- Settles O8: the byte's half at the decode position is the command that the pull names. -/
theorem aStepRunsTheInstructionAtTheDecodePosition :
    Obligations.AStepRunsTheInstructionAtTheDecodePosition := by
  intro s fs f b hfs hf hp hread i
  have hpull := pull_of_lt hfs hf hp (ruleCmd_of_read hread)
  refine ⟨by cases i <;> rfl, step_of_pull_command hpull, fun t ht => ?_⟩
  rw [tick_of_pull_command hpull, eq_applyCommand_of_exec ht]
  rfl

/-- Settles O9: an exhausted pull moves the decode position alone, and every command answers. -/
theorem tickPullsOneCommandAndAppliesIt : Obligations.TickPullsOneCommandAndAppliesIt := by
  refine fun s => ⟨fun t hpull => ⟨tick_of_pull_exhausted hpull, ?_⟩, fun c u hpull =>
    ⟨_, exec_eq_applyCommand c u, tick_of_pull_command hpull⟩⟩
  obtain ⟨-, r, p, -, -, rfl⟩ := pull_exhausted hpull
  exact ⟨sameDrawing_withPosition s r p, sameImage_withPosition s r p⟩

/-- Settles O32, one case for each instruction (`exec_eq_applyCommand`). -/
theorem execIsTheClosedCaseAnalysis : Obligations.ExecIsTheClosedCaseAnalysis := exec_eq_applyCommand

/-- Settles O44. -/
theorem cursorReadsThePairAndChangesNothing : Obligations.CursorReadsThePairAndChangesNothing :=
  fun _ _ => rfl

/-- Settles O45: the grid is the list of its columns, and column `x` the list of its cells. -/
theorem pixelBufferReadsTheGridAndChangesNothing : Obligations.PixelBufferReadsTheGridAndChangesNothing := by
  refine fun romSize s => ⟨s.pixelBuffer, rfl, ?_, fun column hcolumn => ?_, fun x y hx hy => ?_⟩
  · rw [State.pixelBuffer, List.length_map, List.length_range, Config.width]
  · obtain ⟨x, -, rfl⟩ := List.mem_map.mp hcolumn
    rw [List.length_map, List.length_range, Config.height]
  · rw [getElem?_pixelBuffer s hx, Option.bind_some, List.getElem?_map, List.getElem?_range (n := Config.height) hy,
      Option.map_some]

end Sys2Proof.Machine
end

section
/-! # Facts about the Moves (41_move.md)

How far a command moves the cursor and by which flags, what MIRROR does to a Move, and what one step can
do to a state, each said once. -/

namespace Sys2Proof.Machine

/-! ### One Move -/

/-- A Move's opcode answers what the shared operation makes of its payload (41_move.md R85). -/
theorem exec_of_move {i : Instr} {dx dy : Delta} (h : i.command = .move dx dy) (s : State) :
    exec i s = .next (moveBy s dx dy) := by
  rw [exec_eq_applyCommand, h, applyCommand]

section
variable (s : State) (dx dy : Delta)

theorem sameFlags_moveBy : sameFlags s (moveBy s dx dy) :=
  ⟨moveBy_flipX s dx dy, moveBy_flipY s dx dy, moveBy_mirror s dx dy, moveBy_draw s dx dy, moveBy_color s dx dy⟩

theorem samePosition_moveBy : samePosition s (moveBy s dx dy) := ⟨moveBy_rulePc s dx dy, moveBy_pc s dx dy⟩

theorem sameImage_moveBy : sameImage s (moveBy s dx dy) := ⟨moveBy_rom s dx dy, moveBy_romLen s dx dy⟩

end

/-- A Move sees MIRROR in its mirrored payload alone: two Moves from states that differ in MIRROR only and
whose mirrored payloads agree leave states that differ in MIRROR only (41_move.md R85). -/
theorem moveBy_eq_of_mirrored_eq {s : State} {b b' : Bool} {dx dy dx' dy' : Delta}
    (h : mirrored { s with mirror := b } dx dy = mirrored { s with mirror := b' } dx' dy') (m : Bool) :
    { moveBy { s with mirror := b } dx dy with mirror := m } =
      { moveBy { s with mirror := b' } dx' dy' with mirror := m } := by
  have htarget : moveTarget { s with mirror := b } dx dy = moveTarget { s with mirror := b' } dx' dy' := by
    simp only [moveTarget, displacement, h]
  have hcell : paintedCell { s with mirror := b } dx dy = paintedCell { s with mirror := b' } dx' dy' := by
    simp only [paintedCell, htarget]
  rw [moveBy, moveBy, htarget, hcell]
  cases paintedCell { s with mirror := b' } dx' dy' <;> rfl

/-- States that differ in MIRROR only have the same cursor and the same picture. -/
theorem cursor_pb_eq_of_eq_but_mirror {t u : State} {m : Bool}
    (h : ({ t with mirror := m } : State) = { u with mirror := m }) : t.cx = u.cx ∧ t.cy = u.cy ∧ t.pb = u.pb := by
  have hcx := congrArg State.cx h
  have hcy := congrArg State.cy h
  have hpb := congrArg State.pb h
  exact ⟨hcx, hcy, hpb⟩

/-- The swap that MIRROR makes of a payload is undone by swapping the payload (41_move.md R85). -/
theorem mirrored_on_eq_mirrored_off (s : State) (dx dy : Delta) :
    mirrored { s with mirror := true } dx dy = mirrored { s with mirror := false } dy dx := rfl

/-- The swap does nothing to a payload with equal components (42_toggles.md R97, corner case 3). -/
theorem mirrored_diagonal (s : State) (d : Delta) : mirrored s d d = (d, d) := by
  rw [mirrored, ite_self]

/-! ### How far a command moves the cursor -/

/-- What a command adds to the cursor: a Move its displacement, every other command nothing
(10_state.md R27, 41_move.md R85). -/
def cursorShift (s : State) : Command → Int × Int
  | .move dx dy => displacement s dx dy
  | _ => (0, 0)

theorem applyCommand_cx (c : Command) (s : State) :
    (applyCommand c s).cx = s.cx + (cursorShift s c).1 := by
  cases c with
  | move dx dy => exact moveBy_cx s dx dy
  | pushPop | flip | mirror | color | draw | scale => exact (Int.add_zero s.cx).symm

theorem applyCommand_cy (c : Command) (s : State) :
    (applyCommand c s).cy = s.cy + (cursorShift s c).2 := by
  cases c with
  | move dx dy => exact moveBy_cy s dx dy
  | pushPop | flip | mirror | color | draw | scale => exact (Int.add_zero s.cy).symm

/-- A state with the given MIRROR, FLIPX and FLIPY, and the reset values elsewhere. -/
def flagged (flags : Bool × Sign × Sign) : State :=
  { State.reset with mirror := flags.1, flipX := flags.2.1, flipY := flags.2.2 }

/-- MIRROR, FLIPX and FLIPY alone decide how far a command moves the cursor. -/
theorem cursorShift_eq_flagged (s : State) (c : Command) :
    cursorShift s c = cursorShift (flagged (s.mirror, s.flipX, s.flipY)) c := by
  cases c <;> rfl

theorem natAbs_deltaInt_mul_signInt_le (d : Delta) (v : Sign) : (deltaInt d * signInt v).natAbs ≤ 1 := by
  cases d <;> cases v <;> decide

/-- No command moves either coordinate by more than one (41_move.md R85). -/
theorem cursorShift_natAbs_le (s : State) (c : Command) :
    (cursorShift s c).1.natAbs ≤ 1 ∧ (cursorShift s c).2.natAbs ≤ 1 := by
  cases c with
  | move dx dy => exact ⟨natAbs_deltaInt_mul_signInt_le _ _, natAbs_deltaInt_mul_signInt_le _ _⟩
  | pushPop | flip | mirror | color | draw | scale => exact ⟨Nat.zero_le 1, Nat.zero_le 1⟩

/-! ### Which cell a command writes -/

/-- A command writes no cell but the one under the cursor it leaves (10_state.md R27; decision D14,
log 11). -/
theorem read_applyCommand_of_ne_cursor {c : Command} {s : State} {p : Nat × Nat}
    (h : ((p.1 : Int), (p.2 : Int)) ≠ (applyCommand c s).cursor) :
    PixelBuffer.read (applyCommand c s).pb p = PixelBuffer.read s.pb p := by
  cases c with
  | move dx dy =>
    have hcell : paintedCell s dx dy ≠ some p := by
      intro hp
      obtain ⟨-, htarget⟩ := (paintedCell_eq_some_iff s dx dy p).mp hp
      obtain ⟨hx, hy, -⟩ := (cellAt_eq_some_iff _ p).mp htarget
      exact h (Prod.ext (hx.symm.trans (moveBy_cx s dx dy).symm) (hy.symm.trans (moveBy_cy s dx dy).symm))
    rw [applyCommand, read_moveBy, if_neg hcell]
  | pushPop | flip | mirror | color | draw | scale => rfl

/-! ### One step -/

/-- Everything a step that answers can have done: the decode position has not gone back to an earlier
rule, and beside it one command was applied or, in a halting step, none (40_sequencer.md R72). -/
theorem step_next_cases {s t : State} (h : step s = .next t) :
    ∃ r p, s.rulePc ≤ r ∧
      (t = s.withPosition r p ∨ ∃ c : Command, t = (applyCommand c s).withPosition r p) := by
  obtain ⟨b, htick⟩ := (step_eq_next_iff s t).mp h
  rcases tick_cases s with ⟨-, hrefused⟩ | ⟨u, hpull, hhalt⟩ | ⟨c, u, hpull, -⟩
  · rw [hrefused] at htick
    cases htick
  · obtain ⟨fs, r, p, -, hseek, rfl⟩ := pull_exhausted hpull
    obtain ⟨hr, -⟩ := seek_none hseek
    rw [hhalt] at htick
    cases htick
    exact ⟨r, p, by omega, .inl rfl⟩
  · obtain ⟨fs, f, r, p, -, hseek, -, rfl⟩ := pull_command hpull
    obtain ⟨hle, -⟩ := seek_some_getElem hseek
    rw [tick_of_pull_command hpull, applyCommand_withPosition] at htick
    cases htick
    exact ⟨r, p + 1, hle, .inr ⟨c.command, rfl⟩⟩

end Sys2Proof.Machine
end

section
/-! # The statements of 41_move.md -/

namespace Sys2Proof.Machine

/-- Settles O23: each row's opcode is the Move with the row's payload, and `moveBy` says field by field
what that does. -/
theorem everyMoveCompletes : Obligations.EveryMoveCompletes := by
  intro row hrow s
  have hcommand : row.1.command = .move row.2.1 row.2.2 := by
    revert row
    decide
  obtain ⟨i, dx, dy⟩ := row
  refine ⟨moveBy s dx dy, exec_of_move hcommand s, ?_, ?_, fun p hp => ⟨?_, fun q hq => ?_⟩, fun hnone => ?_,
    sameFlags_moveBy s dx dy, sameImage_moveBy s dx dy, samePosition_moveBy s dx dy⟩
  · rw [moveBy_cx, moveTarget_fst]
  · rw [moveBy_cy, moveTarget_snd]
  · rw [read_moveBy, if_pos hp]
  · have hcell : paintedCell s dx dy ≠ some q := fun h => hq (Option.some.inj (h.symm.trans hp))
    rw [read_moveBy, if_neg hcell]
  · rw [moveBy_pb, hnone]

/-- Settles O26: in each clause the two mirrored payloads are the same pair (`moveBy_eq_of_mirrored_eq`). -/
theorem mirrorOnlySwapsThePayload : Obligations.MirrorOnlySwapsThePayload := by
  refine ⟨fun s dx dy => moveBy_eq_of_mirrored_eq (mirrored_on_eq_mirrored_off s dx dy) s.mirror,
    fun i hi s b => ?_, fun s => ?_⟩
  · obtain ⟨d, hcommand⟩ : ∃ d, i.command = .move d d := by
      rcases List.mem_pair.mp hi with rfl | rfl
      · exact ⟨.plus, rfl⟩
      · exact ⟨.minus, rfl⟩
    have hswap : mirrored { s with mirror := b } d d = mirrored { s with mirror := s.mirror } d d := by
      rw [mirrored_diagonal, mirrored_diagonal]
    exact ⟨_, _, exec_of_move hcommand s, exec_of_move hcommand _,
      cursor_pb_eq_of_eq_but_mirror (moveBy_eq_of_mirrored_eq hswap s.mirror)⟩
  · have hswap := mirrored_on_eq_mirrored_off s .plus .minus
    exact ⟨_, _, exec_of_move rfl _, exec_of_move rfl _,
      cursor_pb_eq_of_eq_but_mirror (moveBy_eq_of_mirrored_eq hswap s.mirror)⟩

/-- Settles O35: beside the decode position a step applies one command or none, and one command moves the
cursor by at most one and writes under it alone. -/
theorem aStepMovesOneCellAndPaintsOneCell : Obligations.AStepMovesOneCellAndPaintsOneCell := by
  intro s t hstep
  obtain ⟨r, p, hle, rfl | ⟨c, rfl⟩⟩ := step_next_cases hstep
  · simp only [State.withPosition_cx, State.withPosition_cy, Int.sub_self]
    exact ⟨Nat.zero_le 1, Nat.zero_le 1, fun _ _ => rfl, sameImage_withPosition s r p, hle⟩
  · obtain ⟨hx, hy⟩ := cursorShift_natAbs_le s c
    simp only [State.withPosition_cx, State.withPosition_cy, applyCommand_cx, applyCommand_cy,
      add_sub_cancel_left]
    exact ⟨hx, hy, fun q hq => read_applyCommand_of_ne_cursor hq,
      ⟨applyCommand_rom c s, applyCommand_romLen c s⟩, hle⟩

/-- Settles O25: a Move's displacement depends on the three flags alone, so each of the 64 entries is
evaluated in one state with the flags of its column. -/
theorem moveDisplacementTables : Obligations.MoveDisplacementTables := by
  refine fun table htable entry hentry s hflags => ?_
  have hshift : cursorShift (flagged entry.1) table.1.command = entry.2 := by
    clear s hflags
    revert table entry
    decide
  rw [← hflags, ← cursorShift_eq_flagged] at hshift
  exact ⟨_, exec_eq_applyCommand _ s, by rw [applyCommand_cx, hshift], by rw [applyCommand_cy, hshift]⟩

end Sys2Proof.Machine
end

section
/-! # Facts about the toggles (42_toggles.md)

What a second toggle makes of the first, and what a Move makes of a state that one toggle has changed,
each said once. -/

namespace Sys2Proof.Machine

/-! ### Two toggles in a row -/

@[simp] theorem negSign_negSign (v : Sign) : negSign (negSign v) = v := by
  cases v <;> rfl

theorem signInt_negSign (v : Sign) : signInt (negSign v) = -signInt v := by
  cases v <;> rfl

/-- Two Flips are one Flip of the axes that exactly one of them names (42_toggles.md R94). -/
theorem flipBy_flipBy (s : State) (fx fy gx gy : Bool) :
    flipBy (flipBy s fx fy) gx gy = flipBy s (fx ^^ gx) (fy ^^ gy) := by
  have twice (f g : Bool) (v : Sign) :
      (if g then negSign (if f then negSign v else v) else if f then negSign v else v) =
        if f ^^ g then negSign v else v := by
    cases f <;> cases g <;> simp
  simp only [flipBy, State.flipXWhen, State.flipYWhen, twice]

/-- A Flip with both flags 0 changes nothing (42_toggles.md R94). -/
theorem flipBy_false_false (s : State) : flipBy s false false = s := rfl

/-- A Flip is its own inverse (42_toggles.md R94, corner case 1). -/
theorem flipBy_self (s : State) (fx fy : Bool) : flipBy (flipBy s fx fy) fx fy = s := by
  rw [flipBy_flipBy, Bool.xor_self, Bool.xor_self, flipBy_false_false]

/-- Flips commute (42_toggles.md R94, corner case 2). -/
theorem flipBy_comm (s : State) (fx fy gx gy : Bool) :
    flipBy (flipBy s fx fy) gx gy = flipBy (flipBy s gx gy) fx fy := by
  rw [flipBy_flipBy, flipBy_flipBy, Bool.xor_comm fx, Bool.xor_comm fy]

@[simp] theorem State.toggleMirror_toggleMirror (s : State) : s.toggleMirror.toggleMirror = s := by
  simp only [State.toggleMirror, Bool.not_not]

@[simp] theorem State.toggleColor_toggleColor (s : State) : s.toggleColor.toggleColor = s := by
  simp only [State.toggleColor, Bool.not_not]

@[simp] theorem State.toggleDraw_toggleDraw (s : State) : s.toggleDraw.toggleDraw = s := by
  simp only [State.toggleDraw, Bool.not_not]

/-- Two commands in a row answer the state after both. -/
theorem execAll_pair (i j : Instr) (s : State) :
    execAll [i, j] s = .next (applyCommand j.command (applyCommand i.command s)) :=
  execAll_eq_applyAll [i, j] s

/-- A command that undoes itself, given twice, answers the state it started from. -/
theorem execAll_twice {i : Instr} {s : State} (h : applyCommand i.command (applyCommand i.command s) = s) :
    execAll [i, i] s = .next s := by
  rw [execAll_pair, h]

/-! ### A Move after a toggle -/

section
variable (s : State) (dx dy : Delta)

/-- A Flip acts on the axes of the cursor, after the mirror swap (42_toggles.md R94, corner case 4). -/
theorem displacement_flipBy (fx fy : Bool) : displacement (flipBy s fx fy) dx dy =
    (if fx then -(displacement s dx dy).1 else (displacement s dx dy).1,
      if fy then -(displacement s dx dy).2 else (displacement s dx dy).2) := by
  have axis (f : Bool) (d : Delta) (v : Sign) : deltaInt d * signInt (if f then negSign v else v) =
      if f then -(deltaInt d * signInt v) else deltaInt d * signInt v := by
    cases f
    · rfl
    · exact (congrArg (deltaInt d * ·) (signInt_negSign v)).trans (Int.mul_neg _ _)
  exact Prod.ext (axis fx _ s.flipX) (axis fy _ s.flipY)

/-- MIRROR does not reach a Move whose payload has equal components (42_toggles.md R97, corner case 3). -/
theorem displacement_diagonal (d : Delta) (b : Bool) :
    displacement { s with mirror := b } d d = displacement s d d := by
  simp only [displacement, mirrored_diagonal]

/-- A Move with DRAW = 0 stores nothing (42_toggles.md R99). -/
theorem paintedCell_of_not_draw {s : State} (h : s.draw = false) : paintedCell s dx dy = none := by
  simp [paintedCell, h]

/-- A Move puts the cursor on its target, whatever it paints (41_move.md R85). -/
theorem cursor_moveBy : (moveBy s dx dy).cursor = moveTarget s dx dy := by
  rw [State.cursor, moveBy_cx, moveBy_cy]

/-- COLOR does not choose the cell that a Move stores to (20_memory.md R46). -/
theorem paintedCell_with_color (b : Bool) : paintedCell { s with color := b } dx dy = paintedCell s dx dy := rfl

/-- DRAW does not choose where a Move goes (41_move.md R85). -/
theorem moveTarget_with_draw (b : Bool) : moveTarget { s with draw := b } dx dy = moveTarget s dx dy := rfl

end

end Sys2Proof.Machine
end

section
/-! # The statements of 42_toggles.md -/

namespace Sys2Proof.Machine

/-- Settles O27: two Flips compose to one (`flipBy_flipBy`), and a Flip negates the displacement along the
axes it names (`displacement_flipBy`). -/
theorem theFlipsNegateOneAxis : Obligations.TheFlipsNegateOneAxis := by
  refine ⟨rfl, rfl, signInt_negSign, exec_eq_applyCommand .flipX, exec_eq_applyCommand .flipY,
    fun _ _ _ => rfl, fun s => ⟨execAll_twice (flipBy_self s true false),
      execAll_twice (flipBy_self s false true), ?_⟩, fun s dx dy => ?_⟩
  · rw [execAll_pair, execAll_pair]
    exact congrArg _ (flipBy_comm s true false false true)
  · simp [applyCommand, displacement_flipBy]

/-- Settles O28: the swap is a step of its own before the signs (`mirrored`), and it does nothing to a
payload with equal components. -/
theorem mirrorTogglesItsFlag : Obligations.MirrorTogglesItsFlag :=
  ⟨rfl, exec_eq_applyCommand .mirror,
    fun s => execAll_twice s.toggleMirror_toggleMirror,
    fun _ _ _ => ⟨rfl, rfl⟩,
    fun s => ⟨displacement_diagonal s .plus _, displacement_diagonal s .minus _⟩⟩

/-- Settles O29: COLOR does not choose the cell that a Move stores to, only the value stored there. -/
theorem colorTogglesItsFlag : Obligations.ColorTogglesItsFlag := by
  refine ⟨rfl, exec_eq_applyCommand .color,
    fun s => execAll_twice s.toggleColor_toggleColor, fun s dx dy p hp => ?_⟩
  have hcell : paintedCell { s with color := !s.color } dx dy = some p :=
    (paintedCell_with_color s dx dy _).trans hp
  rw [applyCommand, read_moveBy, if_pos hcell]

/-- Settles O30: with DRAW = 0 a Move stores nothing, and its target does not depend on DRAW. -/
theorem drawTogglesItsFlag : Obligations.DrawTogglesItsFlag := by
  refine ⟨rfl, exec_eq_applyCommand .draw,
    fun s => execAll_twice s.toggleDraw_toggleDraw, fun s dx dy => ⟨?_, ?_⟩,
    exec_eq_applyCommand .draw State.reset⟩
  · rw [applyCommand, moveBy_pb, paintedCell_of_not_draw dx dy rfl]
  · rw [applyCommand, applyCommand, cursor_moveBy, cursor_moveBy, moveTarget_with_draw s dx dy false,
      moveTarget_with_draw s dx dy true]

end Sys2Proof.Machine
end

section
/-! # Facts about the reserved commands (43_reserved.md)

What a reserved command does, what a pull that names a command leaves alone, and the image that holds
two commands in its one payload byte. -/

namespace Sys2Proof

/-- With count 2 both nibbles of the payload byte are commands, whatever their values (30_encoding.md R49,
43_reserved.md R101, corner case 1). -/
theorem decodeBytes_two_commands (b : Byte) :
    decodeBytes [2#8, 1#8, b] = .program [⟨1, [cmd (highNibble b), cmd (lowNibble b)]⟩] := by
  have hframe := decodeBytes_of_frame (count := 2#8) (payload := [b]) 1#8 [] (by decide) rfl
  rwa [decodeBytes_of_no_frame (.inl rfl), Decoding.cons_program] at hframe

namespace Machine

/-- A reserved command changes no state (43_reserved.md R100). -/
theorem applyCommand_of_reserved {i : Instr} (h : i ∈ [Instr.pushPop, Instr.scaleP, Instr.scaleN])
    (s : State) : applyCommand i.command s = s := by
  rcases List.mem_cons.mp h with rfl | h
  · rfl
  · rcases List.mem_pair.mp h with rfl | rfl <;> rfl

/-- A pull that names a command moves the decode position alone, past the command (40_sequencer.md R70). -/
theorem pull_command_frame {s t : State} {c : Instr} (h : s.pull = .command c t) :
    sameDrawing s t ∧ sameImage s t ∧ 0 < t.pc := by
  obtain ⟨-, -, r, p, -, -, -, rfl⟩ := pull_command h
  exact ⟨sameDrawing_withPosition s r (p + 1), sameImage_withPosition s r (p + 1), Nat.succ_pos p⟩

end Machine

end Sys2Proof
end

section
/-! # The statement of 43_reserved.md -/

namespace Sys2Proof.Machine

/-- Settles O31: a reserved command applies as the identity, so its tick leaves what its pull leaves; the
count byte alone says which nibbles are commands. -/
theorem reservedCommandsOnlyTakeATick : Obligations.ReservedCommandsOnlyTakeATick := by
  refine ⟨rfl, rfl, rfl, fun i hi => ?_⟩
  have hid := applyCommand_of_reserved hi
  refine ⟨fun s => ?_, fun s u hpull => ⟨?_, pull_command_frame hpull⟩, fun j s => ?_, fun op pad => ⟨?_, ?_⟩⟩
  · rw [exec_eq_applyCommand, hid]
  · rw [tick_of_pull_command hpull, hid]
  · rw [execAll_eq_applyAll, execAll_eq_applyAll, applyAll_cons, hid]
  · rw [decodeBytes_one_command, highNibble_join]
  · rw [decodeBytes_two_commands, highNibble_join, lowNibble_join, cmd_encode]

end Sys2Proof.Machine
end

section
/-! # Facts about the faults of `load_rom` (60_exceptions.md)

What `load_rom` does with an image, told by the store's capacity and the decoder alone, and what the host
receives of it, each said once. -/

namespace Sys2Proof

/-- Well-formed rules in front of a truncated rest leave it truncated (30_encoding.md R50 case 4). -/
theorem decodeBytes_assemble_append_of_truncated (pad : Nibble) {rules : List Rule}
    (h : programWellFormed rules = true) {tail : List Byte} {len : Nat} (htail : decodeBytes tail = .truncated len) :
    decodeBytes (assemble pad rules ++ tail) = .truncated ((assemble pad rules).length + len) := by
  induction rules with
  | nil => simpa [assemble] using htail
  | cons r rules ih =>
    obtain ⟨hr, hrules⟩ := (programWellFormed_cons r rules).mp h
    rw [assemble_cons, List.append_assoc, decodeBytes_assembleRule_append pad hr, ih hrules,
      Decoding.cons_truncated, List.length_append, Nat.add_assoc]

namespace Machine

/-! ### What `load_rom` does with an image -/

theorem not_fits_iff (romSize : Option Nat) (len : Nat) :
    ¬ fits romSize len ↔ ∃ size, romSize = some size ∧ size < len := by
  simp [fits]

/-- The size check comes first: the image's framing plays no part (60_exceptions.md R105, R110). -/
theorem loadRom_of_lt {size : Nat} {bytes : List Byte} (h : size < bytes.length) (s : State) :
    loadRom (some size) bytes s = .fault (.invalidAddress size) := by
  simp only [loadRom, (overLong_eq_some_iff _ _ _).mpr ⟨rfl, h⟩, raiseInvalidAddress]

/-- An image that fits and does not frame (60_exceptions.md R106; decisions D9 and D10, log 8 and 9). -/
theorem loadRom_of_truncated {romSize : Option Nat} {bytes : List Byte} {len : Nat}
    (hfits : fits romSize bytes.length) (hdec : decodeBytes bytes = .truncated len) (s : State) :
    loadRom romSize bytes s = .fault (.invalidAddress bytes.length) := by
  rcases loadRom_cases romSize bytes s with ⟨size, hlong, -⟩ | ⟨-, -, hload⟩ | ⟨fs, -, hfs, -⟩
  · rw [(overLong_eq_none_iff _ _).mpr hfits] at hlong
    cases hlong
  · exact hload
  · obtain ⟨rules, hrules⟩ := (decodeBytes_program_iff_frames bytes).mpr ⟨fs, hfs⟩
    rw [hdec] at hrules
    cases hrules

/-- Everything `load_rom` can do, told by the store's capacity and the decoder: it writes an image that
fits and decodes, and faults on one that is truncated or too long (40_sequencer.md R76, 60_exceptions.md
R105, R106). -/
theorem loadRom_outcomes (romSize : Option Nat) (bytes : List Byte) (s : State) :
    (fits romSize bytes.length ∧ (∃ rules, decodeBytes bytes = .program rules) ∧
      loadRom romSize bytes s = .next (s.withImage bytes)) ∨
    (fits romSize bytes.length ∧ (∃ len, decodeBytes bytes = .truncated len) ∧
      loadRom romSize bytes s = .fault (.invalidAddress bytes.length)) ∨
    ∃ size, romSize = some size ∧ ¬ fits romSize bytes.length ∧
      loadRom romSize bytes s = .fault (.invalidAddress size) := by
  by_cases hfits : fits romSize bytes.length
  · cases hdec : decodeBytes bytes with
    | program rules =>
      exact .inl ⟨hfits, ⟨rules, rfl⟩, (loadRom_eq_next_iff _ _ _ _).mpr ⟨hfits, ⟨rules, hdec⟩, rfl⟩⟩
    | truncated len => exact .inr (.inl ⟨hfits, ⟨len, rfl⟩, loadRom_of_truncated hfits hdec s⟩)
  · obtain ⟨size, rfl, hlt⟩ := (not_fits_iff _ _).mp hfits
    exact .inr (.inr ⟨size, rfl, hfits, loadRom_of_lt hlt s⟩)

/-! ### What the host receives of a load -/

section
variable {romSize : Option Nat} {bytes : List Byte} {s : State}

theorem perform_loadRom_of_next {t : State} (h : loadRom romSize bytes s = .next t) :
    perform romSize (.loadRom bytes) s = .next (.ok, t) := by
  rw [perform, h, loadResult_next]

/-- A fault is the load's result and leaves the state it was called in (60_exceptions.md R107). -/
theorem perform_loadRom_of_fault {f : Fault} (h : loadRom romSize bytes s = .fault f) :
    perform romSize (.loadRom bytes) s = .next (.fault f, s) := by
  rw [perform, h, loadResult_fault]

end

/-- The host gets `ok` of a load that answered a next state, and of no other. -/
theorem eq_next_of_loadResult_ok {s t : State} {o : Host.Outcome State Fault Refusal}
    (h : loadResult s o = .next (.ok, t)) : o = .next t := by
  cases o with
  | next u => cases h; rfl
  | fault f => cases h
  | refused r => cases h

/-- A session goes on from the state that its first operation leaves (70_reset_and_hazards.md R126). -/
theorem session_cons {romSize : Option Nat} {op : HostOp} {ops : List HostOp} {s t u : State} {r : OpResult}
    {rs : List OpResult} (hop : perform romSize op s = .next (r, t))
    (hops : session romSize ops t = .next (rs, u)) : session romSize (op :: ops) s = .next (r :: rs, u) := by
  simp only [session, hop, hops]

end Machine
end Sys2Proof
end

section
/-! # The statements of 60_exceptions.md -/

namespace Sys2Proof.Machine

/-- Settles O20: in a sound state a pull finds every byte it reads, and every command answers
(`State.Inv.tick`). -/
theorem aTickNeverFaultsOrRefuses : Obligations.ATickNeverFaultsOrRefuses := by
  intro romSize s hinv
  obtain ⟨b, t, htick, -⟩ := hinv.tick
  exact ⟨⟨_, htick⟩, t, (step_eq_next_iff s t).mpr ⟨b, htick⟩⟩

/-- Settles O39: a short last frame is truncated by itself, and rules in front of it do not change that. -/
theorem aTruncatedImageFaults : Obligations.ATruncatedImageFaults := by
  refine ⟨fun romSize bytes len s hfits hdec => loadRom_of_truncated hfits hdec s,
    fun romSize pad rules count rest s hwf hcount hshort hfits => ?_⟩
  have hlast := decodeBytes_of_short hcount hshort
  exact loadRom_of_truncated hfits (decodeBytes_assemble_append_of_truncated pad hwf hlast) s

/-- Settles O47, outcome by outcome of the load (`loadRom_outcomes`). -/
theorem theHostReceivesOneCodeForEachLoad : Obligations.TheHostReceivesOneCodeForEachLoad := by
  intro romSize bytes s
  rcases loadRom_outcomes romSize bytes s with
    ⟨hfits, hprogram, hload⟩ | ⟨hfits, ⟨len, hdec⟩, hload⟩ | ⟨size, hsize, hlong, hload⟩
  · exact ⟨.ok, _, perform_loadRom_of_next hload, iff_of_true rfl ⟨hfits, hprogram⟩, fun _ => ⟨rfl, rfl⟩,
      fun hcode => absurd rfl hcode⟩
  · exact ⟨_, s, perform_loadRom_of_fault hload, by simp [hdec], by simp,
      fun _ => ⟨rfl, rfl, _, rfl, fun _ => rfl, fun hlong => absurd hfits hlong⟩⟩
  · exact ⟨_, s, perform_loadRom_of_fault hload, by simp [hlong], by simp,
      fun _ => ⟨rfl, rfl, _, rfl, fun hfits => absurd hfits hlong, fun _ => hsize⟩⟩

/-- Settles O33: a command writes the drawing state alone, field by field of the image and the position. -/
theorem commandsChangeTheDrawingStateOnly : Obligations.CommandsChangeTheDrawingStateOnly := by
  intro i s t hexec
  obtain rfl := eq_applyCommand_of_exec hexec
  exact ⟨⟨applyCommand_rom _ s, applyCommand_romLen _ s⟩, applyCommand_rulePc _ s, applyCommand_pc _ s⟩

/-- Settles O38. -/
theorem anOverLongImageFaults : Obligations.AnOverLongImageFaults :=
  fun size _ s hlt => ⟨loadRom_of_lt hlt s, Fault.code_invalidAddress size⟩

/-- Settles O40: the fault is the load's result and the old state stands, so the session goes on from it. -/
theorem aFaultingLoadLeavesTheMachineAsItWas : Obligations.AFaultingLoadLeavesTheMachineAsItWas := by
  refine ⟨fun romSize bytes s f hload => ?_, fun romSize bytes s t hok => eq_next_of_loadResult_ok hok⟩
  have hperform := perform_loadRom_of_fault hload
  exact ⟨hperform, fun ops rs t => session_cons hperform⟩

end Sys2Proof.Machine
end

section
/-! # Facts about the reset state (70_reset_and_hazards.md)

The two memories and the framing as `reset` leaves them, each said once. -/

namespace Sys2Proof.Machine

/-- No cell is listed, and an unlisted cell is clear (10_state.md R26). -/
@[simp] theorem PixelBuffer.read_reset (p : Nat × Nat) : PixelBuffer.read State.reset.pb p = false := rfl

/-- The program space holds no byte (decision D8, log 7). -/
@[simp] theorem Memory.read_reset (a : Nat) : Memory.read State.reset.rom a = none := rfl

/-- The program that `reset` leaves is that of the empty image (decision D8, log 7). -/
theorem withImage_nil_reset : State.reset.withImage [] = State.reset := rfl

theorem framing_reset : State.reset.framing = .frames [] := by
  rw [← withImage_nil_reset, framing_withImage]
  exact frameImage_of_no_frame (.inl rfl)

end Sys2Proof.Machine
end

section
/-! # The statements of 70_reset_and_hazards.md -/

namespace Sys2Proof.Machine

/-- Settles O6: a whole frame in front is decoded in front of what follows it
(`decodeBytes_assembleRule_append`), whether the rest is a program or is truncated. -/
theorem aPrependedRuleChangesNoLaterRule : Obligations.APrependedRuleChangesNoLaterRule := by
  intro pad r bytes hwf
  have hdec := decodeBytes_assembleRule_append pad hwf bytes
  refine ⟨fun rules hprogram => ?_, fun len htruncated => ?_⟩
  · rw [hdec, hprogram, Decoding.cons_program]
  · rw [hdec, htruncated, Decoding.cons_truncated]

/-- Settles O41: the registers are fields of the reset state, and the two memories list nothing. -/
theorem resetGivesTheConstructionValues : Obligations.ResetGivesTheConstructionValues :=
  fun _ _ => ⟨State.reset, rfl, rfl, rfl, rfl, PixelBuffer.read_reset, rfl, rfl, rfl, rfl, rfl,
    Memory.read_reset, rfl, rfl, rfl⟩

/-- Settles O42: with no frames, the position 0 is past the last rule. -/
theorem aTickBeforeAnyLoadHalts : Obligations.ATickBeforeAnyLoadHalts :=
  ⟨framing_reset, tick_of_length_le framing_reset (Nat.zero_le _)⟩

end Sys2Proof.Machine
end
